-- ==== Sys2Proof/Word.lean ====
section
/-! DEFINITION. The word types of OWT: host registers and command words are 32 bits wide and numbered with bit 0 least
significant (00_scope.md R8), the byte transport works on bytes (10_state.md R21). -/

namespace Sys2Proof

/-- A host register value or a command word, `bits32` of R8. -/
abbrev Word := BitVec 32

/-- A byte of the byte transport, `bits8` of R8. -/
abbrev Byte := BitVec 8

end Sys2Proof
end

