-- ==== Sys2Proof/Config.lean ====
section
/-! DEFINITION. What the spec leaves open. Of the implementation parameters of 00_scope.md R7, `CLK_PER_US`, `OWT_BASE`
and `OWT_IRQ_LINE` are OPEN and no rule of the engine reads them, so they have no constant here (log 11, log 12); the
fixed values of that table stand in Machine/Operands.lean. The one free value is the draw of the bus environment. -/

namespace Sys2Proof

/-- `slave_low` for one tick: does some device other than OWT pull the line low (40_bit_transport.md R67)? "OWT puts
no law on it", so the constant has no body: nothing can be proved of its values. It is applied to how often `rst` was
asserted and to the tick's number since then, so that no two ticks share a draw (log 3). The step uses it only for a
tick that the input list does not give. -/
opaque Config.slaveLow : Nat → Nat → Bool

end Sys2Proof
end

