-- ==== Sys2Proof/Syntax.lean ====
section
/-! DEFINITION. The seven host commands of OWT (00_scope.md R2, 30_encoding.md R45), one constructor per row of
opcode_table.json. Operands carry their range in their type (30_encoding.md R46, R50), so every term is a command that
an assembler accepts; the raw command words, which can be ill-formed, are checked in WellFormed.lean (log 22). -/

namespace Sys2Proof

/-- `Command` of 30_encoding.md R52, without its `Illegal` case, which is the decoder's rejection. -/
inductive Instr where
  /-- INIT, `OW.INIT` (R91). -/
  | init
  /-- READ_TEMP, `OW.READT` (R94). -/
  | readTemp
  /-- RESET_PRESENCE, `OW.RST` (R70). -/
  | resetPresence
  /-- WRITE_BIT, `OW.WBIT b` (R72): `b` is the one bit to send. -/
  | writeBit (b : Bool)
  /-- READ_BIT, `OW.RBIT` (R74). -/
  | readBit
  /-- WRITE_BYTE, `OW.WBYTE n` (R82): `n` is the byte to send. -/
  | writeByte (n : Byte)
  /-- READ_BYTE, `OW.RBYTE` (R86). -/
  | readByte
deriving DecidableEq, Repr

end Sys2Proof
end

