-- ==== Sys2Proof/WellFormed.lean ====
section
/-! DEFINITION. Which command words are well formed (30_encoding.md R44 to R48). A word has two checks: its OP field
names a command, and no bit outside the fields that command uses is set. -/

namespace Sys2Proof

/-- The OP field, bits 3:0 of a command word (R44). -/
def opField (v : Word) : BitVec 4 := v.extractLsb' 0 4

/-- First check: OP is in 0x1 .. 0x7 (R45, R47). -/
def opIsCommand (op : BitVec 4) : Bool := 1#4 ≤ op && op ≤ 7#4

/-- The bits of ARG a command with this OP uses: WRITE_BIT one, WRITE_BYTE all eight, the others none (R46, R47). -/
def argBits (op : BitVec 4) : Word :=
  match op with
  | 0x4#4 => 0x00000100#32
  | 0x6#4 => 0x0000FF00#32
  | _ => 0x00000000#32

/-- `USED(op)`: the bits a command with this OP uses (R47). -/
def usedBits (op : BitVec 4) : Word := 0x0000000F#32 ||| argBits op

/-- Second check: every bit outside `USED(OP)` is 0 (R46, R47). -/
def unusedBitsClear (v : Word) : Bool := (v &&& ~~~usedBits (opField v)) == 0#32

/-- `Legal(v)` (R47). -/
def legal (v : Word) : Bool := opIsCommand (opField v) && unusedBitsClear v

end Sys2Proof
end

