-- ==== Sys2Proof/Decode.lean ====
section
/-! DEFINITION. Decoding a command word (30_encoding.md R52), total on every word and on every list of bytes and
rejecting by name; and, after it, the encoder (R45, R46, R50). -/

namespace Sys2Proof

/-- Why the decoder rejects. -/
inductive DecodeError where
  /-- OP is 0x0 or 0x8 .. 0xF (R48). -/
  | reservedOp
  /-- A bit outside the fields of the word's OP is set (R48). -/
  | reservedBits
  /-- Fewer bytes than one command word: R49 reads exactly one 32-bit word. -/
  | shortWord
deriving DecidableEq, Repr

/-- The command a legal word names (the `case` of R52); an OP without a command is rejected. -/
def decodeFields (v : Word) : Except DecodeError Instr :=
  match opField v with
  | 0x1#4 => .ok .init
  | 0x2#4 => .ok .readTemp
  | 0x3#4 => .ok .resetPresence
  | 0x4#4 => .ok (.writeBit (v.getLsbD 8))
  | 0x5#4 => .ok .readBit
  | 0x6#4 => .ok (.writeByte (v.extractLsb' 8 8))
  | 0x7#4 => .ok .readByte
  | _ => .error .reservedOp

/-- `DecodeCmd(v)` (R52): `Illegal(v)` is the rejection. -/
def decode (v : Word) : Except DecodeError Instr :=
  if legal v then decodeFields v
  else if opIsCommand (opField v) then .error .reservedBits
  else .error .reservedOp

/-- A register value from its bytes, lowest address first: little-endian (20_memory.md R38). -/
def wordOfBytes (b0 b1 b2 b3 : Byte) : Word := b3 ++ b2 ++ b1 ++ b0

/-- The bytes of a register value, lowest address first (R38). -/
def bytesOfWord (v : Word) : List Byte :=
  [v.extractLsb' 0 8, v.extractLsb' 8 8, v.extractLsb' 16 8, v.extractLsb' 24 8]

/-- Decoding from bytes: exactly one 32-bit word is read (R49), the rest of the list is handed back. -/
def decodeBytes : List Byte → Except DecodeError (Instr × List Byte)
  | b0 :: b1 :: b2 :: b3 :: rest =>
    match decode (wordOfBytes b0 b1 b2 b3) with
    | .ok i => .ok (i, rest)
    | .error err => .error err
  | _ => .error .shortWord

/-- The word a command assembles to (R50; the operands' places are R46's). -/
def encode : Instr → Word
  | .init => 0x00000001#32
  | .readTemp => 0x00000002#32
  | .resetPresence => 0x00000003#32
  | .writeBit b => 0x00000004#32 ||| ((BitVec.ofBool b).setWidth 32 <<< 8)
  | .readBit => 0x00000005#32
  | .writeByte n => 0x00000006#32 ||| (n.setWidth 32 <<< 8)
  | .readByte => 0x00000007#32

/-- The command word whose bits are `w`, of which the opcode table gives `nbits`; the bits above are 0. -/
def tableWord (nbits w : Nat) : Word := BitVec.ofNat 32 (w % 2 ^ nbits)

/-- What the decoder reads from the table's word, laid out as the host bus stores it (R38). -/
def decodeTableWord (nbits w : Nat) : Option Instr :=
  match decodeBytes (bytesOfWord (tableWord nbits w)) with
  | .ok (i, _) => some i
  | .error _ => none

end Sys2Proof
end

