-- ==== Sys2Proof/Machine/State.lean ====
section
/-! DEFINITION. The state of OWT (10_state.md R13) as plain data, the outside world's inputs to it, the reasons a step can
stop, and the state after reset (R31). -/

namespace Sys2Proof.Machine

/-- The values of `op`, the command being executed (10_state.md R16). -/
inductive Op where
  | none | rstp | wbit | rbit | wbyte | rbyte | readt
deriving DecidableEq, Repr

/-- The values of `step`, the protocol sequencer's state (10_state.md R17). -/
inductive SeqStep where
  | reset1 | convSkip | convCmd | wait750ms | reset2 | rsSkip | rsCmd | rsLsb | rsMsb
deriving DecidableEq, Repr

/-- The values of `slot`, the kind of line activity in progress (10_state.md R18, 40_bit_transport.md R60). -/
inductive SlotKind where
  | none | rst | w0 | w1 | rd | cwait
deriving DecidableEq, Repr

/-- The values of STATUS.RESULT that OWT produces (30_encoding.md R58); the codes 0x6 to 0xF, "never produced", have
no value of this type (log 7). -/
inductive ResultCode where
  | none | ok | noPresence | notReady | notInitialized | illegalCmd
deriving DecidableEq, Repr

/-- OWT's own state, "and nothing else" (10_state.md R13). -/
structure Engine where
  /-- STATUS.BUSY: a command is executing (R25). -/
  busy : Bool
  /-- STATUS.DONE: a command has completed; the level of `done_irq` (R25, R117). -/
  done : Bool
  /-- STATUS.RESULT: the result code of the last command (R25, R58). -/
  result : ResultCode
  /-- STATUS.PRESENCE: of the last RESET_PRESENCE or of READ_TEMP's first reset (R25). -/
  presence : Bool
  /-- STATUS.PRESENCE2: of READ_TEMP's second reset (R25). -/
  presence2 : Bool
  /-- STATUS.INITIALIZED: the last INIT found `line_ready = 1` (R25). -/
  initialized : Bool
  /-- STATUS.OVERRUN, sticky: a command was written while BUSY = 1 (R25, R115). -/
  overrun : Bool
  /-- RXDATA (R26). -/
  rxdata : Word
  /-- TEMP_RAW (R27). -/
  tempRaw : Word
  /-- TEMP_F32 (R28). -/
  tempF32 : Word
  /-- The command being executed (R16). -/
  op : Op
  /-- The protocol sequencer's state; meaningful only while `op = READT` (R17). -/
  step : SeqStep
  /-- The kind of slot in progress (R18). -/
  slot : SlotKind
  /-- Ticks elapsed since the slot began, a 20-bit counter with values 0 .. 749999 (R19, log 6). -/
  e : Nat
  /-- The line level at the last sample instant, true for high (R20). -/
  samp : Bool
  /-- The byte transport's shift register (R21). -/
  shreg : Byte
  /-- Bit slots of the current byte already completed, a 4-bit counter with values 0 .. 8 (R22, log 6). -/
  bitn : Nat
  /-- The first scratchpad byte of a READ_TEMP (R23). -/
  lsb : Byte
deriving DecidableEq, Repr

/-- Every element at its reset value (R31). -/
def Engine.reset : Engine where
  busy := false
  done := false
  result := .none
  presence := false
  presence2 := false
  initialized := false
  overrun := false
  rxdata := 0x00000000#32
  tempRaw := 0x00000000#32
  tempF32 := 0x00000000#32
  op := .none
  step := .reset1
  slot := .none
  e := 0
  samp := false
  shreg := 0x00#8
  bitn := 0
  lsb := 0x00#8

/-- How wide a host access is. OWT admits whole words only (20_memory.md R36). -/
inductive AccessSize where
  | byte | halfword | word
deriving DecidableEq, Repr

/-- One thing the outside world does to OWT, at one instant or, for a tick, from one instant to the next. -/
inductive Input where
  /-- One tick of `tick_1us`, with its draw `slave_low` (00_scope.md R9, 40_bit_transport.md R66, R67). -/
  | tick (slaveLow : Bool)
  /-- The host writes `v` at byte offset `off` of the register window (20_memory.md R34). -/
  | hostWrite (size : AccessSize) (off : Nat) (v : Word)
  /-- The host reads at byte offset `off` of the register window (20_memory.md R33). -/
  | hostRead (size : AccessSize) (off : Nat)
  /-- The pad's `line_ready` input takes this level (10_state.md R15, 60_exceptions.md R121). -/
  | lineReady (level : Bool)
  /-- `rst` is asserted (70_reset_and_hazards.md R126). -/
  | rst
deriving DecidableEq, Repr

/-- The machine: OWT and, beside it, what the model holds of the outside world (the model's own fields, INVENTORY.md). -/
structure State where
  /-- OWT's own state (R13). -/
  engine : Engine
  /-- The level on the `line_ready` input (R15): an input, no state of OWT. -/
  lineReady : Bool
  /-- What the outside world does next, oldest first: one total order of ticks, host operations, pin changes and resets
  (20_memory.md R41). When it is empty only time passes (log 2). -/
  inputs : List Input
  /-- The word the last `HostRead` returned to the host (R33, log 5). -/
  hostRdata : Word
  /-- The time: ticks since the last reset (R9). -/
  now : Nat
  /-- How often `rst` was asserted; with `now` it numbers the free draws (log 3). -/
  resets : Nat
deriving DecidableEq, Repr

/-- The machine right after reset. OWT's elements have R31's values. The inputs are the outside world's: `line_ready` is
high as in 95_test_vectors.md section 0 (DESIGN CHOICE, log 4) and nothing is waiting (DESIGN CHOICE, log 2); no word was
read yet (DESIGN CHOICE, log 5). -/
def State.reset : State where
  engine := Engine.reset
  lineReady := true
  inputs := []
  hostRdata := 0x00000000#32
  now := 0
  resets := 0

/-- What stops the machine. OWT raises no traps (60_exceptions.md R110), so no command ends here. -/
inductive Fault where
  /-- Raised by `slotDone` when a slot completes while `op = NONE`: `SlotDone` has no case for it (40_bit_transport.md
  R68). Safe: no state that meets `Engine.Inv` reaches it, and none that a run from reset reaches (log 8). -/
  | slotWithoutCommand
deriving DecidableEq, Repr

/-- What the model refuses. -/
inductive Refusal where
  /-- Raised by an arm of `exec` without a meaning; no arm is left without one. Safe. -/
  | notModelled (mnemonic : String)
  /-- Raised by a host access narrower than a word: "a model admits only aligned 32-bit HostRead and HostWrite and refuses
  any other access" (20_memory.md R36). Safe. -/
  | narrowAccess
  /-- Raised by a host access at an offset that is not word-aligned (R36). Safe. -/
  | misalignedAccess
  /-- Raised by a host access at an offset beyond the window's 32 bytes (R35; log 9). Safe. -/
  | outsideWindow
deriving DecidableEq, Repr

end Sys2Proof.Machine
end

