-- ==== Sys2Proof/Machine/Operands.lean ====
section
/-! DEFINITION. The operands of OWT's operations: the constants fixed in hardware, the timing of each slot kind, the slot
that carries a bit, the registers of the host window, and the number format of the temperature. -/

namespace Sys2Proof.Machine

/-! ### Constants -/

/-- `CMD_SKIP_ROM` (30_encoding.md R54; the value is the spec's, from general knowledge, log 16). -/
def cmdSkipRom : Byte := 0xCC#8

/-- `CMD_CONVERT_T` (R54, log 16). -/
def cmdConvertT : Byte := 0x44#8

/-- `CMD_READ_SCRATCHPAD` (R54, log 16). -/
def cmdReadScratchpad : Byte := 0xBE#8

/-- `SENTINEL_F32`, the binary32 encoding of -1000.0 (00_scope.md R7, 30_encoding.md R59). -/
def sentinelF32 : Word := 0xC47A0000#32

/-! ### Slots -/

/-- `LEN(k)`, in ticks (40_bit_transport.md R61). R61 gives no length to NONE, which is no slot. -/
def len : SlotKind → Nat
  | .none => 0
  | .rst => 960
  | .w1 => 70
  | .w0 => 70
  | .rd => 70
  | .cwait => 750000

/-- `SAMPLE_AT(k)`: the elapsed tick at which the slot samples the line, if it does (R61). -/
def sampleAt : SlotKind → Option Nat
  | .none => none
  | .rst => some 550
  | .w1 => none
  | .w0 => none
  | .rd => some 15
  | .cwait => none

/-- `DRIVE(k, e)`: does the engine pull the line low during the tick at elapsed `e` (R62)? -/
def drive : SlotKind → Nat → Bool
  | .rst, e => e < 480
  | .w1, e => e < 6
  | .w0, e => e < 60
  | .rd, e => e < 6
  | .cwait, _ => false
  | .none, _ => false

/-- The line level during a tick, a wired AND with a pull-up: true for high (R63). -/
def line (driveLow slaveLow : Bool) : Bool := !driveLow && !slaveLow

/-- The write slot that sends a bit: W1 for 1, W0 for 0 (R71). -/
def bitSlot (b : Bool) : SlotKind := if b then .w1 else .w0

/-! ### The host register window -/

/-- The registers of the window (10_state.md R24). -/
inductive HostReg where
  | cmd | status | rxdata | tempRaw | tempF32 | reserved
deriving DecidableEq, Repr

/-- The register at a byte offset (R24); other offsets hold none. -/
def hostReg? : Nat → Option HostReg
  | 0x00 => some .cmd
  | 0x04 => some .status
  | 0x08 => some .rxdata
  | 0x0C => some .tempRaw
  | 0x10 => some .tempF32
  | 0x14 => some .reserved
  | 0x18 => some .reserved
  | 0x1C => some .reserved
  | _ => none

/-- What a host access reaches: a register, or the reason the model refuses it (20_memory.md R35, R36). -/
def hostAccess (size : AccessSize) (off : Nat) : Except Refusal HostReg :=
  if size ≠ .word then .error .narrowAccess
  else if off % 4 ≠ 0 then .error .misalignedAccess
  else match hostReg? off with
    | some r => .ok r
    | none => .error .outsideWindow

/-! ### The temperature -/

/-- `raw16 = (MSB << 8) | LSB` (43_decoder.md R104, 20_memory.md R40). -/
def assembleRaw (l m : Byte) : BitVec 16 := m ++ l

/-- `F32(raw)`: the binary32 encoding of raw / 16, exact for raw in -32768 .. 32767 (43_decoder.md R106). -/
def f32 (raw : Int) : Word :=
  if raw = 0 then 0x00000000#32
  else
    let s := decide (raw < 0)
    let m := raw.natAbs
    let k := Nat.log2 m
    let exp := 127 + k - 4
    let frac := (m - 2 ^ k) <<< (23 - k)
    BitVec.ofBool s ++ BitVec.ofNat 8 exp ++ BitVec.ofNat 23 frac

end Sys2Proof.Machine
end

