-- ==== Sys2Proof/Machine/Flags.lean ====
section
/-! DEFINITION. STATUS: the code of each result, the word a read returns, what a write clears, and the interrupt output
(10_state.md R25, 20_memory.md R33 and R34, 30_encoding.md R58, 60_exceptions.md R117). -/

namespace Sys2Proof.Machine

/-- The four bits of STATUS.RESULT for each result (30_encoding.md R58). -/
def ResultCode.code : ResultCode → BitVec 4
  | .none => 0x0#4
  | .ok => 0x1#4
  | .noPresence => 0x2#4
  | .notReady => 0x3#4
  | .notInitialized => 0x4#4
  | .illegalCmd => 0x5#4

/-- The word a read of STATUS returns, with LINE_READY taken from the input at that instant (20_memory.md R33). -/
def statusWord (lineReady : Bool) (g : Engine) : Word :=
  0#19 ++ BitVec.ofBool lineReady ++ BitVec.ofBool g.overrun ++ BitVec.ofBool g.initialized ++
    BitVec.ofBool g.presence2 ++ BitVec.ofBool g.presence ++ g.result.code ++ 0#2 ++
    BitVec.ofBool g.done ++ BitVec.ofBool g.busy

/-- A write to STATUS: writing 1 to bit 1 clears DONE, to bit 11 OVERRUN; nothing else changes (20_memory.md R34). -/
def writeStatus (v : Word) (g : Engine) : Engine :=
  { g with done := g.done && !v.getLsbD 1, overrun := g.overrun && !v.getLsbD 11 }

/-- The interrupt output: a level equal to STATUS.DONE (60_exceptions.md R117). -/
def doneIrq (g : Engine) : Bool := g.done

/-- The line output `drive_low` during the next tick (10_state.md R14). -/
def driveLow (g : Engine) : Bool := drive g.slot g.e

end Sys2Proof.Machine
end

