-- ==== Sys2Proof/Machine/Ops.lean ====
section
/-! DEFINITION. The operations the commands share, in the spec's own names: starting a slot, ending a command, the two byte
operations, the decoder, and accepting or turning away a command. OWT takes no exception (60_exceptions.md R110): an error is
a result code, written by `finish` for a command that ran and by `completeAtOnce` for one that did not start. -/

namespace Sys2Proof.Machine

/-- `StartSlot(k)` (40_bit_transport.md R64). -/
def startSlot (k : SlotKind) (g : Engine) : Engine := { g with slot := k, e := 0 }

/-- `Finish(res)` (42_sequencer.md R93). -/
def finish (res : ResultCode) (g : Engine) : Engine :=
  { g with slot := .none, e := 0, op := .none, busy := false, done := true, result := res }

/-! ### Byte transport -/

/-- `StartWriteByte(b)` (41_byte_transport.md R79). -/
def startWriteByte (b : Byte) (g : Engine) : Engine :=
  startSlot (bitSlot (b.getLsbD 0)) { g with shreg := b, bitn := 0 }

/-- The serializer's shift and count (R80, first two lines). -/
def shiftOut (g : Engine) : Engine := { g with shreg := g.shreg >>> 1, bitn := g.bitn + 1 }

/-- `WriteByteSlotDone()` (R80): is the byte finished, and the engine after it. -/
def writeByteSlotDone (g : Engine) : Bool × Engine :=
  let g := shiftOut g
  if g.bitn = 8 then (true, g) else (false, startSlot (bitSlot (g.shreg.getLsbD 0)) g)

/-- `StartReadByte()` (R83). -/
def startReadByte (g : Engine) : Engine := startSlot .rd { g with shreg := 0x00#8, bitn := 0 }

/-- The deserializer's shift and count (R84, first two lines). -/
def shiftIn (g : Engine) : Engine :=
  { g with
    shreg := (g.shreg >>> 1) ||| ((BitVec.ofBool g.samp).setWidth 8 <<< 7)
    bitn := g.bitn + 1 }

/-- `ReadByteSlotDone()` (R84): is the byte finished, and the engine after it. -/
def readByteSlotDone (g : Engine) : Bool × Engine :=
  let g := shiftIn g
  if g.bitn = 8 then (true, g) else (false, startSlot .rd g)

/-! ### The decoder -/

/-- `Decode(l, m)` (43_decoder.md R104). -/
def decodeTemperature (l m : Byte) (g : Engine) : Engine :=
  { g with
    tempRaw := (assembleRaw l m).signExtend 32
    tempF32 := f32 (assembleRaw l m).toInt }

/-! ### Accepting a command (42_sequencer.md R89) -/

/-- A CMD write while BUSY = 1: OVERRUN is set, the running command is untouched (60_exceptions.md R115). -/
def markOverrun (g : Engine) : Engine := { g with overrun := true }

/-- A command that ends at the instant of its CMD write, with this result and no line activity (R89, R92, R114). -/
def completeAtOnce (res : ResultCode) (g : Engine) : Engine := { g with done := true, result := res }

/-- An illegal word (R89's first two checks; 60_exceptions.md R114). -/
def rejectIllegal (g : Engine) : Engine :=
  if g.busy then markOverrun g else completeAtOnce .illegalCmd g

/-- A legal command other than INIT: R89's checks in R90's order, then `start` from the engine marked busy. -/
def beginCommand (start : Engine → Engine) (g : Engine) : Engine :=
  if g.busy then markOverrun g
  else if g.initialized then start { g with done := false, busy := true, result := .none }
  else completeAtOnce .notInitialized g

end Sys2Proof.Machine
end

