-- ==== Sys2Proof/Machine/BitTransport.lean ====
section
/-! DEFINITION. The bit-transport commands RESET_PRESENCE, WRITE_BIT and READ_BIT (40_bit_transport.md section 3): what each
does at acceptance, and what each does when its slot completes. -/

namespace Sys2Proof.Machine

/-- RESET_PRESENCE at acceptance (R70). -/
def execResetPresence (s : State) : Host.Outcome State Fault Refusal :=
  .next { s with engine := beginCommand (fun g => startSlot .rst { g with op := .rstp }) s.engine }

/-- RESET_PRESENCE at completion (R68, R70). -/
def resetPresenceSlotDone (g : Engine) : Engine := finish .ok { g with presence := !g.samp }

/-- WRITE_BIT at acceptance (R72). -/
def execWriteBit (b : Bool) (s : State) : Host.Outcome State Fault Refusal :=
  .next { s with engine := beginCommand (fun g => startSlot (bitSlot b) { g with op := .wbit }) s.engine }

/-- WRITE_BIT at completion (R68, R72). -/
def writeBitSlotDone (g : Engine) : Engine := finish .ok g

/-- READ_BIT at acceptance (R74). -/
def execReadBit (s : State) : Host.Outcome State Fault Refusal :=
  .next { s with engine := beginCommand (fun g => startSlot .rd { g with op := .rbit }) s.engine }

/-- READ_BIT at completion (R68, R74). -/
def readBitSlotDone (g : Engine) : Engine :=
  finish .ok { g with rxdata := (BitVec.ofBool g.samp).setWidth 32 }

end Sys2Proof.Machine
end

