-- ==== Sys2Proof/Machine/ByteTransport.lean ====
section
/-! DEFINITION. The byte-transport commands WRITE_BYTE and READ_BYTE (41_byte_transport.md R82, R86). -/

namespace Sys2Proof.Machine

/-- WRITE_BYTE at acceptance (R82). -/
def execWriteByte (n : Byte) (s : State) : Host.Outcome State Fault Refusal :=
  .next { s with engine := beginCommand (fun g => startWriteByte n { g with op := .wbyte }) s.engine }

/-- WRITE_BYTE when one of its slots completes (40_bit_transport.md R68). -/
def writeByteCmdSlotDone (g : Engine) : Engine :=
  match writeByteSlotDone g with
  | (true, g) => finish .ok g
  | (false, g) => g

/-- READ_BYTE at acceptance (R86). -/
def execReadByte (s : State) : Host.Outcome State Fault Refusal :=
  .next { s with engine := beginCommand (fun g => startReadByte { g with op := .rbyte }) s.engine }

/-- READ_BYTE when one of its slots completes (40_bit_transport.md R68). -/
def readByteCmdSlotDone (g : Engine) : Engine :=
  match readByteSlotDone g with
  | (true, g) => finish .ok { g with rxdata := g.shreg.setWidth 32 }
  | (false, g) => g

end Sys2Proof.Machine
end

