-- ==== Sys2Proof/Machine/Init.lean ====
section
/-! DEFINITION. INIT (42_sequencer.md R91): the one command that ends at the instant it is accepted. -/

namespace Sys2Proof.Machine

/-- The `Init` arm of R89: the level of `line_ready` is taken into INITIALIZED and decides the result. -/
def takeLineReady (lineReady : Bool) (g : Engine) : Engine :=
  completeAtOnce (if lineReady then .ok else .notReady) { g with initialized := lineReady }

/-- INIT: while BUSY = 1 an overrun, else R91's effect, whether or not INITIALIZED is set (R90). -/
def execInit (s : State) : Host.Outcome State Fault Refusal :=
  .next { s with
    engine := if s.engine.busy then markOverrun s.engine else takeLineReady s.lineReady s.engine }

end Sys2Proof.Machine
end

