-- ==== Sys2Proof/Machine/Sequencer.lean ====
section
/-! DEFINITION. READ_TEMP (42_sequencer.md sections 3 and 4): acceptance and the read-temperature sequence. -/

namespace Sys2Proof.Machine

/-- READ_TEMP at acceptance: the `ReadTemp` arm of R89 (R94). -/
def execReadTemp (s : State) : Host.Outcome State Fault Refusal :=
  .next { s with
    engine := beginCommand
      (fun g => startSlot .rst { g with op := .readt, step := .reset1, presence2 := false }) s.engine }

/-- `if WriteByteSlotDone(): next`, as R95 uses it. -/
def afterWriteByte (next : Engine → Engine) (g : Engine) : Engine :=
  match writeByteSlotDone g with
  | (true, g) => next g
  | (false, g) => g

/-- `if ReadByteSlotDone(): next`, as R95 uses it. -/
def afterReadByte (next : Engine → Engine) (g : Engine) : Engine :=
  match readByteSlotDone g with
  | (true, g) => next g
  | (false, g) => g

/-- `SeqSlotDone()` (R95): the sequence is linear with one conditional exit, at RESET_1. -/
def seqSlotDone (g : Engine) : Engine :=
  match g.step with
  | .reset1 =>
    if g.samp then finish .noPresence { g with presence := !g.samp, tempF32 := sentinelF32 }
    else startWriteByte cmdSkipRom { g with presence := !g.samp, step := .convSkip }
  | .convSkip => afterWriteByte (fun g => startWriteByte cmdConvertT { g with step := .convCmd }) g
  | .convCmd => afterWriteByte (fun g => startSlot .cwait { g with step := .wait750ms }) g
  | .wait750ms => startSlot .rst { g with step := .reset2 }
  | .reset2 => startWriteByte cmdSkipRom { g with presence2 := !g.samp, step := .rsSkip }
  | .rsSkip => afterWriteByte (fun g => startWriteByte cmdReadScratchpad { g with step := .rsCmd }) g
  | .rsCmd => afterWriteByte (fun g => startReadByte { g with step := .rsLsb }) g
  | .rsLsb => afterReadByte (fun g => startReadByte { g with lsb := g.shreg, step := .rsMsb }) g
  | .rsMsb => afterReadByte (fun g => finish .ok (decodeTemperature g.lsb g.shreg g)) g

end Sys2Proof.Machine
end

