-- ==== Sys2Proof/Machine/Dispatch.lean ====
section
/-! DEFINITION. The seven commands: what a legal command word, written to CMD at this instant, does (42_sequencer.md R89). -/

namespace Sys2Proof.Machine

/-- A legal command at the instant of its CMD write. What a started command does later is the tick's (Tick.lean, log 1). -/
def exec (i : Instr) (s : State) : Host.Outcome State Fault Refusal :=
  match i with
  | .init => Sys2Proof.Machine.execInit s
  | .readTemp => Sys2Proof.Machine.execReadTemp s
  | .resetPresence => Sys2Proof.Machine.execResetPresence s
  | .writeBit b => Sys2Proof.Machine.execWriteBit b s
  | .readBit => Sys2Proof.Machine.execReadBit s
  | .writeByte n => Sys2Proof.Machine.execWriteByte n s
  | .readByte => Sys2Proof.Machine.execReadByte s

end Sys2Proof.Machine
end

