-- ==== Sys2Proof/Machine/Tick.lean ====
section
/-! DEFINITION. The engine's step: one tick of 1 µs (40_bit_transport.md R65 to R68). -/

namespace Sys2Proof.Machine

/-- `SlotDone()` (R68): a slot completed; the running command decides what follows. R68 has no case for `op = NONE`, so a
slot that completes there is a fault (log 8). -/
def slotDone (g : Engine) : Except Fault Engine :=
  match g.op with
  | .none => .error .slotWithoutCommand
  | .rstp => .ok (resetPresenceSlotDone g)
  | .wbit => .ok (writeBitSlotDone g)
  | .rbit => .ok (readBitSlotDone g)
  | .wbyte => .ok (writeByteCmdSlotDone g)
  | .rbyte => .ok (readByteCmdSlotDone g)
  | .readt => .ok (seqSlotDone g)

/-- The sample of a tick: `samp` takes the line level at the slot's sample instant and at no other (R66). -/
def takeSample (slaveLow : Bool) (g : Engine) : Engine :=
  if sampleAt g.slot = some g.e then { g with samp := line (driveLow g) slaveLow } else g

/-- `EngineTick(slave_low)` (R66): idle, a tick changes nothing (R65). -/
def engineTick (slaveLow : Bool) (g : Engine) : Except Fault Engine :=
  if g.slot = .none then .ok g
  else
    let g := takeSample slaveLow g
    let g := { g with e := g.e + 1 }
    if g.e = len g.slot then slotDone g else .ok g

end Sys2Proof.Machine
end

