-- ==== Sys2Proof/Machine/HostPort.lean ====
section
/-! DEFINITION. What each input does: the host register port (20_memory.md R33, R34), a tick, the `line_ready` pin and
`rst`. -/

namespace Sys2Proof.Machine

/-- `AcceptCommand(v)` (42_sequencer.md R89): a legal word is its command, any other word is turned away. -/
def acceptCommand (v : Word) (s : State) : Host.Outcome State Fault Refusal :=
  match decode v with
  | .ok i => exec i s
  | .error _ => .next { s with engine := rejectIllegal s.engine }

/-- A write to a register of the window (R34): read-only and reserved registers ignore it. -/
def writeReg (r : HostReg) (v : Word) (s : State) : Host.Outcome State Fault Refusal :=
  match r with
  | .cmd => acceptCommand v s
  | .status => .next { s with engine := writeStatus v s.engine }
  | .rxdata => .next s
  | .tempRaw => .next s
  | .tempF32 => .next s
  | .reserved => .next s

/-- The value a read of a register returns (R33). -/
def readReg (r : HostReg) (s : State) : Word :=
  match r with
  | .cmd => 0x00000000#32
  | .status => statusWord s.lineReady s.engine
  | .rxdata => s.engine.rxdata
  | .tempRaw => s.engine.tempRaw
  | .tempF32 => s.engine.tempF32
  | .reserved => 0x00000000#32

/-- `HostWrite(off, v)` (R34); an access R36 does not admit is refused. -/
def hostWrite (size : AccessSize) (off : Nat) (v : Word) (s : State) : Host.Outcome State Fault Refusal :=
  match hostAccess size off with
  | .ok r => writeReg r v s
  | .error refusal => .refused refusal

/-- `HostRead(off)` (R33): OWT's state is unchanged, the host receives the word (log 5). -/
def hostRead (size : AccessSize) (off : Nat) (s : State) : Host.Outcome State Fault Refusal :=
  match hostAccess size off with
  | .ok r => .next { s with hostRdata := readReg r s }
  | .error refusal => .refused refusal

/-- One tick (40_bit_transport.md R66): the engine steps and time advances (00_scope.md R9). -/
def tick (slaveLow : Bool) (s : State) : Host.Outcome State Fault Refusal :=
  match engineTick slaveLow s.engine with
  | .ok g => .next { s with engine := g, now := s.now + 1 }
  | .error f => .fault f

/-- `rst` (70_reset_and_hazards.md R126, R127): every element of OWT takes its reset value at once and time starts anew; what
the outside world holds stays (log 10). -/
def assertRst (s : State) : State :=
  { s with engine := Engine.reset, now := 0, resets := s.resets + 1 }

/-- What one input does. -/
def applyInput (i : Input) (s : State) : Host.Outcome State Fault Refusal :=
  match i with
  | .tick slaveLow => tick slaveLow s
  | .hostWrite size off v => hostWrite size off v s
  | .hostRead size off => hostRead size off s
  | .lineReady level => .next { s with lineReady := level }
  | .rst => .next (assertRst s)

end Sys2Proof.Machine
end

