-- ==== Sys2Proof/Machine/Step.lean ====
section
/-! DEFINITION. One step of the machine: the next input of the one total order (20_memory.md R41), or, when none is waiting, a
tick whose draw is free (40_bit_transport.md R67). -/

namespace Sys2Proof.Machine

/-- One step. -/
def step (s : State) : Host.Outcome State Fault Refusal :=
  match s.inputs with
  | [] => tick (Config.slaveLow s.resets s.now) s
  | i :: rest => applyInput i { s with inputs := rest }

/-- OWT fetches nothing (20_memory.md R43): a command runs because the host writes its word to CMD. So the word is placed as
the next input, a write of CMD (log 14). -/
def State.withFetchWord (s : State) (nbits w : Nat) : State :=
  { s with inputs := .hostWrite .word 0x00 (tableWord nbits w) :: s.inputs }

end Sys2Proof.Machine
end

