-- ==== Sys2Proof/Machine/Assembler.lean ====
section
/-! DEFINITION. The notation of host programs (30_encoding.md R50, R51): the inputs each line stands for. -/

namespace Sys2Proof.Machine

/-- A command mnemonic: `HostWrite(0x00, word)` (R50). -/
def owCommand (i : Instr) : Input := .hostWrite .word 0x00 (encode i)

/-- `.word v`: an arbitrary word written to CMD (R50). -/
def owWord (v : Word) : Input := .hostWrite .word 0x00 v

/-- `LD r, off`: the word goes to the host, whose register r is its own (R51). -/
def owLoad (off : Nat) : Input := .hostRead .word off

/-- `ST off, v` (R51). -/
def owStore (off : Nat) (v : Word) : Input := .hostWrite .word off v

/-- `OW.CLR`: clear DONE and OVERRUN (R51). -/
def owClear : Input := .hostWrite .word 0x04 0x00000802#32

/-- `OW.WAIT`: read STATUS until BUSY is clear (R51). Between two polls the engine takes one tick with the next of the given
draws; when the draws are used up the wait is left where it stands (log 18). -/
def owWait : List Bool → State → Host.Outcome State Fault Refusal
  | [], s => hostRead .word 0x04 s
  | d :: ds, s =>
    match hostRead .word 0x04 s with
    | .next t =>
      if t.hostRdata.getLsbD 0 then
        match tick d t with
        | .next u => owWait ds u
        | .fault f => .fault f
        | .refused r => .refused r
      else .next t
    | .fault f => .fault f
    | .refused r => .refused r

/-- `OW.TEMP` up to its three loads: `OW.READT`, then `OW.WAIT` (R51). -/
def owTemp (draws : List Bool) (s : State) : Host.Outcome State Fault Refusal :=
  match applyInput (owCommand .readTemp) s with
  | .next t => owWait draws t
  | .fault f => .fault f
  | .refused r => .refused r

/-- The loads that end `OW.TEMP`: STATUS, TEMP_RAW, TEMP_F32 (R51). -/
def owTempLoads : List Input := [owLoad 0x04, owLoad 0x0C, owLoad 0x10]

end Sys2Proof.Machine
end

