-- ==== Sys2Proof/Safety.lean ====
section
/-! DEFINITION. The terms claims use: runs of the machine and of the engine's ticks, the invariant of OWT's state, the
low time on the line, and the number a binary32 pattern stands for. -/

namespace Sys2Proof.Machine

/-! ### Runs -/

/-- `n` steps, ending at the first fault or refusal. -/
def run : Nat → State → Host.Outcome State Fault Refusal
  | 0, s => .next s
  | n + 1, s =>
    match step s with
    | .next t => run n t
    | .fault f => .fault f
    | .refused r => .refused r

/-- The same state with these inputs waiting. -/
def State.withInputs (s : State) (inputs : List Input) : State := { s with inputs := inputs }

/-- `n` ticks with the draws `d 0`, …, `d (n - 1)`, as inputs. -/
def drawTicks (d : Nat → Bool) (n : Nat) : List Input := (List.range n).map (fun j => .tick (d j))

/-- The engine after `n` ticks with the draws `d 0`, …, `d (n - 1)`. -/
def tickRun (d : Nat → Bool) : Nat → Engine → Except Fault Engine
  | 0, g => .ok g
  | n + 1, g =>
    match tickRun d n g with
    | .ok h => engineTick (d n) h
    | .error f => .error f

/-- Does the engine pull the line low during tick `j` of such a run (10_state.md R14)? -/
def lowAt (d : Nat → Bool) (g : Engine) (j : Nat) : Bool :=
  match tickRun d j g with
  | .ok h => driveLow h
  | .error _ => false

/-- In how many of the first `n` ticks the engine pulls the line low: the "low ticks" of 70_reset_and_hazards.md R138. -/
def lowTicks (d : Nat → Bool) (g : Engine) (n : Nat) : Nat := ((List.range n).filter (lowAt d g)).length

/-- An engine that may accept a command and start it: idle and initialized (42_sequencer.md R90). -/
abbrev Engine.ready (g : Engine) : Prop := g.busy = false ∧ g.initialized = true

/-- The engine running a command in its first tick of a slot: BUSY is 1, DONE and RESULT are cleared (42_sequencer.md R89). -/
def Engine.running (op : Op) (slot : SlotKind) (g : Engine) : Engine :=
  { g with op := op, slot := slot, e := 0, busy := true, done := false, result := .none }

/-- The engine at rest after a command that ended in a result: the line is released, DONE is 1 (42_sequencer.md R93). -/
def Engine.completed (res : ResultCode) (g : Engine) : Engine :=
  { g with op := .none, slot := .none, e := 0, busy := false, done := true, result := res }

/-- A command takes `n` ticks: it is running before each of them and has completed after the last (70_reset_and_hazards.md
R138). -/
def completesAfter (d : Nat → Bool) (g : Engine) (n : Nat) : Prop :=
  (∀ j < n, ∃ h, tickRun d j g = .ok h ∧ h.busy = true) ∧
  ∃ h, tickRun d n g = .ok h ∧ h.busy = false ∧ h.done = true

/-- The byte whose bit `i` is the bit sampled in read slot `i`: `Σ s_i · 2^i` (41_byte_transport.md R85). -/
def sampledByte (s : Nat → Bool) : Byte :=
  BitVec.ofNat 8 ((List.range 8).map (fun i => (s i).toNat * 2 ^ i)).sum

/-- Is this an input that leaves a running command alone: a tick, an admitted host access, a `line_ready` change? -/
def Input.quiet : Input → Bool
  | .tick _ => true
  | .hostWrite size off _ => size = .word ∧ (hostReg? off).isSome
  | .hostRead size off => size = .word ∧ (hostReg? off).isSome
  | .lineReady _ => true
  | .rst => false

/-- The draw of a tick; other inputs have none. -/
def Input.draw? : Input → Option Bool
  | .tick b => some b
  | .hostWrite _ _ _ => none
  | .hostRead _ _ => none
  | .lineReady _ => none
  | .rst => none

/-! ### The invariant -/

/-- In a byte that is being written, the slot sends the bit at the bottom of `shreg` (41_byte_transport.md R79, R80). -/
abbrev Engine.inWriteByte (g : Engine) : Prop := g.slot = bitSlot (g.shreg.getLsbD 0) ∧ g.bitn < 8

/-- In a byte that is being read, every slot is a read slot (41_byte_transport.md R83, R84). -/
abbrev Engine.inReadByte (g : Engine) : Prop := g.slot = .rd ∧ g.bitn < 8

/-- The slot that fits the running command and, for a READ_TEMP, its step (40_bit_transport.md R70 to R74,
41_byte_transport.md R82 and R86, 42_sequencer.md R96); no command, no slot (10_state.md R18). -/
def Engine.slotFits (g : Engine) : Bool :=
  match g.op with
  | .none => g.slot = .none
  | .rstp => g.slot = .rst
  | .wbit => g.slot = .w0 ∨ g.slot = .w1
  | .rbit => g.slot = .rd
  | .wbyte => g.inWriteByte
  | .rbyte => g.inReadByte
  | .readt =>
    match g.step with
    | .reset1 => g.slot = .rst
    | .convSkip => g.inWriteByte
    | .convCmd => g.inWriteByte
    | .wait750ms => g.slot = .cwait
    | .reset2 => g.slot = .rst
    | .rsSkip => g.inWriteByte
    | .rsCmd => g.inWriteByte
    | .rsLsb => g.inReadByte
    | .rsMsb => g.inReadByte

/-- `op = NONE` exactly when BUSY = 0 (10_state.md R16). -/
abbrev Engine.busyFits (g : Engine) : Prop := g.op = .none ↔ g.busy = false

/-- The counters are in their ranges (10_state.md R19, R22); at rest `e` is 0 (42_sequencer.md R93). -/
abbrev Engine.countersFit (g : Engine) : Prop :=
  (g.slot ≠ .none → g.e < len g.slot) ∧ (g.slot = .none → g.e = 0) ∧ g.bitn ≤ 8

/-- While a command runs RESULT is NONE, DONE is 0 and INITIALIZED is 1 (42_sequencer.md R89; 70_reset_and_hazards.md R131);
DONE comes with a result code (60_exceptions.md R109). -/
abbrev Engine.resultFits (g : Engine) : Prop :=
  (g.busy = true → g.result = .none ∧ g.done = false ∧ g.initialized = true) ∧
  (g.done = true → g.result ≠ .none)

/-- What an error code leaves behind (42_sequencer.md R92; 60_exceptions.md R111, R112). -/
abbrev Engine.errorFits (g : Engine) : Prop :=
  (g.result = .notReady → g.initialized = false) ∧
  (g.result = .notInitialized → g.initialized = false) ∧
  (g.result = .noPresence → g.presence = false ∧ g.tempF32 = sentinelF32)

/-- The presence flags of a running READ_TEMP (42_sequencer.md R95): it passed RESET_1 only with a presence, and PRESENCE2 is
clear until RESET_2 has completed. -/
abbrev Engine.presenceFits (g : Engine) : Prop :=
  (g.op = .readt → g.step ≠ .reset1 → g.presence = true) ∧
  (g.op = .readt → g.step ∈ [.reset1, .convSkip, .convCmd, .wait750ms, .reset2] → g.presence2 = false)

/-- The data registers keep their formats: RXDATA's bits 31:8 are 0 (10_state.md R26), TEMP_RAW is sign-extended from 16
bits (R27), TEMP_F32 is the encoding of TEMP_RAW or the sentinel (R28). -/
abbrev Engine.dataFits (g : Engine) : Prop :=
  (g.rxdata.setWidth 8).setWidth 32 = g.rxdata ∧
  (g.tempRaw.setWidth 16).signExtend 32 = g.tempRaw ∧
  (g.tempF32 = f32 g.tempRaw.toInt ∨ g.tempF32 = sentinelF32)

/-- The invariant of OWT's state: it holds at reset and every step keeps it. -/
abbrev Engine.Inv (g : Engine) : Prop :=
  g.slotFits = true ∧ g.busyFits ∧ g.countersFit ∧ g.resultFits ∧ g.errorFits ∧ g.presenceFits ∧ g.dataFits

/-- The machine's invariant is its engine's: nothing is assumed of the outside world. -/
abbrev State.Inv (s : State) : Prop := s.engine.Inv

/-! ### How far a command is -/

/-- The place of each step in the sequence (42_sequencer.md R95). -/
def SeqStep.index : SeqStep → Nat
  | .reset1 => 0
  | .convSkip => 1
  | .convCmd => 2
  | .wait750ms => 3
  | .reset2 => 4
  | .rsSkip => 5
  | .rsCmd => 6
  | .rsLsb => 7
  | .rsMsb => 8

/-- The number of 1 bits of a byte. -/
def popcount (n : Byte) : Nat := (List.range 8).countP n.getLsbD

/-- The duration of each command from acceptance to completion, by the presence at READ_TEMP's first reset
(70_reset_and_hazards.md R138). -/
def duration (present : Bool) : Instr → Nat
  | .init => 0
  | .readTemp => if present then 755280 else 960
  | .resetPresence => 960
  | .writeBit _ => 70
  | .readBit => 70
  | .writeByte _ => 560
  | .readByte => 560

/-- The ticks during which OWT itself pulls the line low in each command (70_reset_and_hazards.md R138). -/
def ownLowTicks (present : Bool) : Instr → Nat
  | .init => 0
  | .readTemp => if present then 2112 else 480
  | .resetPresence => 480
  | .writeBit b => if b then 6 else 60
  | .readBit => 6
  | .writeByte n => 6 * popcount n + 60 * (8 - popcount n)
  | .readByte => 48

/-- Where a READ_TEMP that found its sensor is after `n` ticks: the step, the bit number in a byte, and the ticks elapsed in
the slot (the table of 42_sequencer.md R96). -/
def readTempPlace (n : Nat) : SeqStep × Nat × Nat :=
  if n < 960 then (.reset1, 0, n)
  else if n < 1520 then (.convSkip, (n - 960) / 70, (n - 960) % 70)
  else if n < 2080 then (.convCmd, (n - 1520) / 70, (n - 1520) % 70)
  else if n < 752080 then (.wait750ms, 0, n - 2080)
  else if n < 753040 then (.reset2, 0, n - 752080)
  else if n < 753600 then (.rsSkip, (n - 753040) / 70, (n - 753040) % 70)
  else if n < 754160 then (.rsCmd, (n - 753600) / 70, (n - 753600) % 70)
  else if n < 754720 then (.rsLsb, (n - 754160) / 70, (n - 754160) % 70)
  else (.rsMsb, (n - 754720) / 70, (n - 754720) % 70)

/-- The slot READ_TEMP runs in a step, at a bit number (42_sequencer.md R96, 30_encoding.md R55). -/
def readTempSlot (step : SeqStep) (bit : Nat) : SlotKind :=
  match step with
  | .reset1 => .rst
  | .convSkip => bitSlot (cmdSkipRom.getLsbD bit)
  | .convCmd => bitSlot (cmdConvertT.getLsbD bit)
  | .wait750ms => .cwait
  | .reset2 => .rst
  | .rsSkip => bitSlot (cmdSkipRom.getLsbD bit)
  | .rsCmd => bitSlot (cmdReadScratchpad.getLsbD bit)
  | .rsLsb => .rd
  | .rsMsb => .rd

/-! ### The number in TEMP_F32 -/

/-- The rational number a finite binary32 pattern stands for (30_encoding.md R57). -/
def binary32Value (v : Word) : ℚ :=
  let sign : ℚ := if v.getLsbD 31 then -1 else 1
  let exp := (v.extractLsb' 23 8).toNat
  let frac : ℚ := (v.extractLsb' 0 23).toNat
  if exp = 0 then sign * frac / 2 ^ 149 else sign * (1 + frac / 2 ^ 23) * 2 ^ ((exp : Int) - 127)

end Sys2Proof.Machine
end

