-- ==== Sys2Proof/Certificates/Slice0/Obligations.lean ====
section
/-! DEFINITION. The statements for the provers. Each docstring names the rule of the spec it formalises. -/

open Sys2Proof Sys2Proof.Machine

/-! ### Encoding -/

/-- 30_encoding.md sections 1 to 3 (R44 to R46, R50, R52): a word decodes to a command exactly if it is the word the command
assembles to. So decoding what was encoded gives the command back, with every operand, and no other word decodes to it. -/
def Obligations.DecodeAnswersExactlyTheEncodedWord : Prop :=
  ∀ (v : Word) (i : Instr), decode v = .ok i ↔ v = encode i

/-- R47: a word decodes exactly if OP is 0x1 .. 0x7 and no bit outside `USED(OP)` is set; any other word, written while no
command runs, completes at once with ILLEGAL_CMD and starts nothing. -/
def Obligations.ExactlyLegalWordsRun : Prop :=
  ∀ v : Word,
    let op := (v.extractLsb' 0 4).toNat
    let used : Word := if op = 4 then 0x0000010F#32 else if op = 6 then 0x0000FF0F#32 else 0x0000000F#32
    let legalWord := (1 ≤ op ∧ op ≤ 7) ∧ v &&& ~~~used = 0#32
    ((∃ i, decode v = .ok i) ↔ legalWord) ∧
    (¬ legalWord → ∀ s : State, s.engine.busy = false →
      acceptCommand v s = .next { s with engine := { s.engine with done := true, result := .illegalCmd } })

/-- 30_encoding.md R45, R46 and R50 on some of the table's words. -/
def Obligations.TableWordsDecode : Prop :=
  decode 0x00000001#32 = .ok .init ∧ decode 0x00000002#32 = .ok .readTemp ∧
  decode 0x00000003#32 = .ok .resetPresence ∧ decode 0x00000004#32 = .ok (.writeBit false) ∧
  decode 0x00000104#32 = .ok (.writeBit true) ∧ decode 0x00000005#32 = .ok .readBit ∧
  decode 0x0000CC06#32 = .ok (.writeByte 0xCC#8) ∧ decode 0x00000007#32 = .ok .readByte ∧
  decode 0x00000205#32 = .error .reservedBits ∧ decode 0x00000008#32 = .error .reservedOp

/-- 95_test_vectors.md section 4: the legal words are 263 in all. -/
def Obligations.LegalWordsAreTwoHundredSixtyThree : Prop :=
  ∃ l : List Word, l.length = 263 ∧ l.Nodup ∧ ∀ v : Word, legal v = true ↔ v ∈ l

/-- 20_memory.md R38 and 30_encoding.md R49: byte k of a register holds bits 8k+7 : 8k, and from bytes exactly one word is
decoded, the rest handed back; fewer than four bytes are no word (the model's choice, log 15). -/
def Obligations.BytesAreLittleEndian : Prop :=
  (∀ (v : Word) (k : Nat), k < 4 → (bytesOfWord v)[k]? = some (v.extractLsb' (8 * k) 8)) ∧
  (∀ (v : Word) (i : Instr) (rest : List Byte), decode v = .ok i →
    decodeBytes (bytesOfWord v ++ rest) = .ok (i, rest)) ∧
  (∀ bs : List Byte, bs.length < 4 → decodeBytes bs = .error .shortWord)

/-! ### Accepting a command -/

/-- R90: the checks of a CMD write in their order, and what the one that applies does. -/
def Obligations.AcceptCommandChecksInOrder : Prop :=
  ∀ (v : Word) (s : State),
    (s.engine.busy = true → acceptCommand v s = .next { s with engine := { s.engine with overrun := true } }) ∧
    (s.engine.busy = false → legal v = false →
      acceptCommand v s = .next { s with engine := { s.engine with done := true, result := .illegalCmd } }) ∧
    (s.engine.busy = false → decode v = .ok .init →
      acceptCommand v s = .next { s with engine := { s.engine with
        initialized := s.lineReady, done := true, result := if s.lineReady then .ok else .notReady } }) ∧
    (s.engine.busy = false → ∀ i, decode v = .ok i → i ≠ .init → s.engine.initialized = false →
      acceptCommand v s = .next { s with engine := { s.engine with done := true, result := .notInitialized } }) ∧
    (s.engine.busy = false → ∀ i, decode v = .ok i → i ≠ .init → s.engine.initialized = true →
      ∃ g, acceptCommand v s = .next { s with engine := g } ∧ g.busy = true ∧ g.done = false ∧ g.result = .none ∧
        g.op ≠ .none ∧ g.slot ≠ .none ∧ g.e = 0)

/-- R91: INIT's encoding; its effect, which takes no tick and starts no slot, whether or not INITIALIZED is set; and that it
is an overrun while BUSY = 1. -/
def Obligations.InitTakesLineReady : Prop :=
  (∀ v : Word, decode v = .ok .init ↔ v = 0x00000001#32) ∧
  ∀ s : State,
    (s.engine.busy = false →
      exec .init s = .next { s with engine := { s.engine with
        initialized := s.lineReady, result := if s.lineReady then .ok else .notReady, done := true } }) ∧
    (s.engine.busy = true → exec .init s = .next { s with engine := { s.engine with overrun := true } })

/-- R92: a legal command other than INIT, written while INITIALIZED = 0, is not started. -/
def Obligations.UninitializedCommandIsNotStarted : Prop :=
  ∀ (i : Instr) (s : State), i ≠ .init → s.engine.busy = false → s.engine.initialized = false →
    exec i s = .next { s with engine := { s.engine with done := true, result := .notInitialized } }

/-- R115: a CMD write while BUSY = 1 changes OVERRUN and nothing else, whatever the word; the running command goes on as if it
had not been written; OVERRUN, once set, stays until a write of STATUS with bit 11 set (or a reset); and that write clears it. -/
def Obligations.OverrunIsIgnoredAndSticky : Prop :=
  (∀ (v : Word) (s : State), s.engine.busy = true →
    acceptCommand v s = .next { s with engine := { s.engine with overrun := true } }) ∧
  (∀ (b x : Bool) (g : Engine), engineTick b { g with overrun := x } =
    (match engineTick b g with
      | .ok h => .ok { h with overrun := x }
      | .error f => .error f)) ∧
  (∀ s t : State, s.engine.overrun = true → step s = .next t →
    t.engine.overrun = true ∨ s.inputs.head? = some .rst ∨
      ∃ v, s.inputs.head? = some (.hostWrite .word 0x04 v) ∧ v.getLsbD 11 = true) ∧
  (∀ (v : Word) (s : State), v.getLsbD 11 = true →
    ∃ t, hostWrite .word 0x04 v s = .next t ∧ t.engine.overrun = false)

/-- The frame of the seven commands at their CMD write (42_sequencer.md R89): nothing of the outside world changes, no data
register, no presence flag but READ_TEMP's PRESENCE2, no sample; and INITIALIZED, `step`, the shift register and its count only by the
commands that use them. -/
def Obligations.CommandsLeaveTheRestUnchanged : Prop :=
  ∀ (i : Instr) (s t : State), exec i s = .next t →
    t = { s with engine := t.engine } ∧
    t.engine.rxdata = s.engine.rxdata ∧ t.engine.tempRaw = s.engine.tempRaw ∧ t.engine.tempF32 = s.engine.tempF32 ∧
    t.engine.presence = s.engine.presence ∧ t.engine.samp = s.engine.samp ∧ t.engine.lsb = s.engine.lsb ∧
    (i ≠ .readTemp → t.engine.presence2 = s.engine.presence2 ∧ t.engine.step = s.engine.step) ∧
    (i ≠ .init → t.engine.initialized = s.engine.initialized) ∧
    ((∀ n, i ≠ .writeByte n) → i ≠ .readByte → t.engine.shreg = s.engine.shreg ∧ t.engine.bitn = s.engine.bitn) ∧
    (s.engine.busy = false → t.engine.overrun = s.engine.overrun) ∧
    (s.engine.busy = true → t.engine = { s.engine with overrun := true })

/-! ### The line -/

/-- R62: the drive pattern of every slot; a slot other than CWAIT begins with the engine pulling low, every slot ends
released, and at its sample instant the engine has released the line. -/
def Obligations.DriveFollowsThePattern : Prop :=
  (∀ e : Nat, drive .rst e = decide (e < 480) ∧ drive .w1 e = decide (e < 6) ∧ drive .w0 e = decide (e < 60) ∧
    drive .rd e = decide (e < 6) ∧ drive .cwait e = false ∧ drive .none e = false) ∧
  (∀ k : SlotKind, k ≠ .none →
    (k ≠ .cwait → drive k 0 = true) ∧ drive k (len k - 1) = false ∧ ∀ e, sampleAt k = some e → drive k e = false)

/-- R63: the line's level during each tick is a wired AND, high exactly if neither OWT nor another device pulls it low; and that
is the level a sample takes. -/
def Obligations.SampleIsTheWiredAnd : Prop :=
  (∀ own other : Bool, line own other = true ↔ own = false ∧ other = false) ∧
  ∀ (b : Bool) (g : Engine), sampleAt g.slot = some g.e →
    ((takeSample b g).samp = true ↔ driveLow g = false ∧ b = false)

/-- R65: an idle engine drives nothing and no tick changes it, whatever the draw. -/
def Obligations.IdleTickChangesNothing : Prop :=
  ∀ (b : Bool) (g : Engine), g.slot = .none → driveLow g = false ∧ engineTick b g = .ok g

/-- R67 and R137: the result of a run of ticks depends on the draws only at sample instants. -/
def Obligations.DrawsMatterOnlyAtSamples : Prop :=
  ∀ (d d' : Nat → Bool) (n : Nat) (g : Engine),
    (∀ j < n, ∀ h, tickRun d j g = .ok h → sampleAt h.slot = some h.e → d j = d' j) →
    tickRun d n g = tickRun d' n g

/-- 40_bit_transport.md R75: slots follow one another with no gap. When a slot completes and the command goes on, the next slot is
in its first tick at once. -/
def Obligations.SlotsFollowWithoutGap : Prop :=
  ∀ (b : Bool) (g h : Engine), g.Inv → g.slot ≠ .none → g.e + 1 = len g.slot → engineTick b g = .ok h →
    (h.busy = true ∧ h.slot ≠ .none ∧ h.e = 0) ∨ (h.busy = false ∧ h.slot = .none ∧ h.e = 0)

/-! ### Bit-transport commands -/

/-- R70: RESET_PRESENCE. Its one encoding; acceptance; the RST slot, low for 480 ticks; completion after 960 ticks with
RESULT OK and PRESENCE the draw of tick 550, whatever the other draws; nothing else is written. -/
def Obligations.ResetPresenceRunsOneResetSlot : Prop :=
  (∀ v : Word, decode v = .ok .resetPresence ↔ v = 0x00000003#32) ∧
  ∀ (s : State) (d : Nat → Bool), s.engine.ready →
    let g0 := s.engine.running .rstp .rst
    exec .resetPresence s = .next { s with engine := g0 } ∧
    (∀ n < 960, ∃ h, tickRun d n g0 = .ok h ∧
      h = { g0 with e := n, samp := if 550 < n then !d 550 else g0.samp } ∧ driveLow h = decide (n < 480)) ∧
    tickRun d 960 g0 = .ok { s.engine.completed .ok with presence := d 550, samp := !d 550 }

/-- R72: WRITE_BIT. Its two encodings; acceptance; the W1 or W0 slot, low for 6 or 60 ticks; completion after 70 ticks with
RESULT OK; nothing else is written and no draw is read. -/
def Obligations.WriteBitRunsOneWriteSlot : Prop :=
  (∀ (v : Word) (b : Bool), decode v = .ok (.writeBit b) ↔ v = if b then 0x00000104#32 else 0x00000004#32) ∧
  ∀ (s : State) (b : Bool) (d : Nat → Bool), s.engine.ready →
    let g0 := s.engine.running .wbit (if b then .w1 else .w0)
    exec (.writeBit b) s = .next { s with engine := g0 } ∧
    (∀ n < 70, ∃ h, tickRun d n g0 = .ok h ∧ h = { g0 with e := n } ∧
      driveLow h = decide (n < if b then 6 else 60)) ∧
    tickRun d 70 g0 = .ok (s.engine.completed .ok)

/-- R74: READ_BIT. Its one encoding; acceptance; the RD slot, low for 6 ticks; completion after 70 ticks with RESULT OK and
RXDATA 0 if a device pulls low at tick 15 and 1 if not; nothing else is written. -/
def Obligations.ReadBitReturnsTheLineAtFifteen : Prop :=
  (∀ v : Word, decode v = .ok .readBit ↔ v = 0x00000005#32) ∧
  ∀ (s : State) (d : Nat → Bool), s.engine.ready →
    let g0 := s.engine.running .rbit .rd
    exec .readBit s = .next { s with engine := g0 } ∧
    (∀ n < 70, ∃ h, tickRun d n g0 = .ok h ∧
      h = { g0 with e := n, samp := if 15 < n then !d 15 else g0.samp } ∧ driveLow h = decide (n < 6)) ∧
    tickRun d 70 g0 =
      .ok { s.engine.completed .ok with rxdata := if d 15 then 0#32 else 1#32, samp := !d 15 }

/-! ### Byte-transport commands -/

/-- R82 (and R81): WRITE_BYTE. Its encodings; acceptance; slot i, from tick 70 i on, is W1 if bit i of n is 1 and W0 if it is
0, low for its first 6 or 60 ticks; completion after 560 ticks with RESULT OK, `shreg = 0` and `bitn = 8`; nothing else is written. -/
def Obligations.WriteByteSendsBitsInOrder : Prop :=
  (∀ (v : Word) (n : Byte), decode v = .ok (.writeByte n) ↔ v = 0x00000006#32 ||| (n.setWidth 32 <<< 8)) ∧
  ∀ (s : State) (n : Byte) (d : Nat → Bool), s.engine.ready →
    let slotOf := fun i : Nat => if n.getLsbD i then SlotKind.w1 else SlotKind.w0
    let g0 := { s.engine.running .wbyte (slotOf 0) with shreg := n, bitn := 0 }
    exec (.writeByte n) s = .next { s with engine := g0 } ∧
    (∀ i < 8, ∀ j < 70, ∃ h, tickRun d (70 * i + j) g0 = .ok h ∧
      h = { g0 with shreg := n >>> i, bitn := i, slot := slotOf i, e := j } ∧
      driveLow h = decide (j < if n.getLsbD i then 6 else 60)) ∧
    tickRun d 560 g0 = .ok { s.engine.completed .ok with shreg := 0x00#8, bitn := 8 }

/-- R86 (and R85): READ_BYTE. Its one encoding; acceptance; eight RD slots, RXDATA unwritten before the end; completion after
560 ticks with RESULT OK and RXDATA the byte whose bit i is the line at tick 70 i + 15. -/
def Obligations.ReadByteReturnsSampledBits : Prop :=
  (∀ v : Word, decode v = .ok .readByte ↔ v = 0x00000007#32) ∧
  ∀ (s : State) (d : Nat → Bool), s.engine.ready →
    let g0 := { s.engine.running .rbyte .rd with shreg := 0x00#8, bitn := 0 }
    let byte := sampledByte (fun i => !d (70 * i + 15))
    exec .readByte s = .next { s with engine := g0 } ∧
    (∀ i < 8, ∀ j < 70, ∃ h, tickRun d (70 * i + j) g0 = .ok h ∧
      h = { g0 with shreg := h.shreg, samp := h.samp, bitn := i, e := j }) ∧
    tickRun d 560 g0 = .ok { s.engine.completed .ok with
      rxdata := byte.setWidth 32, shreg := byte, bitn := 8, samp := !d 505 }

/-- R87: the round trip. WRITE_BYTE x run to its end, then READ_BYTE run to its end on a line where read slot i samples the bit of
write slot i (a device pulls low at its sample exactly if bit i is 0), leaves RXDATA = x; stated of the machine's steps. -/
def Obligations.LoopbackReturnsTheByteWritten : Prop :=
  ∀ (s : State) (x : Byte) (d d' : Nat → Bool), s.engine.ready → (∀ i < 8, d' (70 * i + 15) = !x.getLsbD i) →
    ∃ t, run 1122 (s.withInputs
        (owCommand (.writeByte x) :: drawTicks d 560 ++ owCommand .readByte :: drawTicks d' 560)) = .next t ∧
      t.engine.rxdata = x.setWidth 32 ∧ t.engine.result = .ok ∧ t.engine.busy = false ∧ t.now = s.now + 1120

/-! ### READ_TEMP -/

/-- 42_sequencer.md R89 and R94: READ_TEMP's one encoding and its acceptance. -/
def Obligations.ReadTempStartsWithAReset : Prop :=
  (∀ v : Word, decode v = .ok .readTemp ↔ v = 0x00000002#32) ∧
  ∀ s : State, s.engine.ready →
    exec .readTemp s = .next { s with engine :=
      { s.engine.running .readt .rst with step := .reset1, presence2 := false } }

/-- R97 (and R112): no presence at the first reset. READ_TEMP ends at instant 960 with NO_PRESENCE, PRESENCE 0 and the sentinel in
TEMP_F32, TEMP_RAW and all else kept; up to then only the reset slot ran. -/
def Obligations.ReadTempWithoutPresenceStopsAtOnce : Prop :=
  ∀ (g : Engine) (d : Nat → Bool), d 550 = false →
    let g0 := { g.running .readt .rst with step := .reset1, presence2 := false }
    (∀ n < 960, ∃ h, tickRun d n g0 = .ok h ∧ h.op = .readt ∧ h.step = .reset1 ∧ h.slot = .rst ∧ h.e = n) ∧
    tickRun d 960 g0 = .ok { g.completed .noPresence with
      step := .reset1, presence := false, presence2 := false, tempF32 := 0xC47A0000#32, samp := true }

/-- R102 and R104 (with R94, R100, R101): a presence at the first reset. Whatever the second reset finds, READ_TEMP ends at
instant 755280 with OK; PRESENCE2 is what the second reset found; the LSB is the byte of the samples at 754175 + 70 i and the MSB that at
754735 + 70 i; TEMP_RAW is their sign-extended assembly and TEMP_F32 its encoding; RXDATA and all else are kept. -/
def Obligations.ReadTempDeliversTheReading : Prop :=
  ∀ (g : Engine) (d : Nat → Bool), d 550 = true →
    let g0 := { g.running .readt .rst with step := .reset1, presence2 := false }
    let l := sampledByte (fun i => !d (754175 + 70 * i))
    let m := sampledByte (fun i => !d (754735 + 70 * i))
    let raw16 : BitVec 16 := m ++ l
    tickRun d 755280 g0 = .ok { g.completed .ok with
      step := .rsMsb, presence := true, presence2 := d 752630, tempRaw := raw16.signExtend 32,
      tempF32 := f32 raw16.toInt, lsb := l, shreg := m, bitn := 8, samp := !d 755225 }

/-- R96: the success path's timing. At every instant of the 755280 ticks READ_TEMP is in the step, slot and elapsed tick of the
table, with its results unwritten but for PRESENCE from 960 and PRESENCE2 from 753040 on. -/
def Obligations.ReadTempFollowsTheTimeline : Prop :=
  ∀ (g : Engine) (d : Nat → Bool), d 550 = true →
    let g0 := { g.running .readt .rst with step := .reset1, presence2 := false }
    ∀ n < 755280, ∃ h, tickRun d n g0 = .ok h ∧
      h.op = .readt ∧ h.busy = true ∧ h.done = false ∧ h.result = .none ∧
      h.step = (readTempPlace n).1 ∧ h.slot = readTempSlot h.step (readTempPlace n).2.1 ∧ h.e = (readTempPlace n).2.2 ∧
      (sampleAt h.slot = some h.e ↔
        n = 550 ∨ n = 752630 ∨ ∃ i < 8, n = 754175 + 70 * i ∨ n = 754735 + 70 * i) ∧
      h.presence = (if n < 960 then g.presence else true) ∧
      h.presence2 = (if n < 753040 then false else d 752630) ∧
      h.rxdata = g.rxdata ∧ h.tempRaw = g.tempRaw ∧ h.tempF32 = g.tempF32

/-- 42_sequencer.md R95 and R103: the sequence is linear with one conditional exit. A tick of a READ_TEMP leaves its step, moves it to
the next, or ends the command: at RESET_1 with NO_PRESENCE or at RS_MSB with OK. -/
def Obligations.SequenceIsLinearWithOneExit : Prop :=
  ∀ (b : Bool) (g h : Engine), g.Inv → g.op = .readt → engineTick b g = .ok h →
    (h.op = .readt ∧ (h.step = g.step ∨ h.step.index = g.step.index + 1)) ∨
    (h.op = .none ∧ h.step = g.step ∧
      ((g.step = .reset1 ∧ h.result = .noPresence) ∨ (g.step = .rsMsb ∧ h.result = .ok)))

/-! ### Durations -/

/-- R138: each command's duration from acceptance to completion, and the ticks during which OWT pulls the line low; INIT takes no
tick. -/
def Obligations.CommandsTakeTheirTicks : Prop :=
  ∀ (i : Instr) (s t : State) (d : Nat → Bool), s.Inv → s.engine.ready → exec i s = .next t →
    (i = .init → t.engine.busy = false ∧ t.engine.done = true ∧ t.engine.slot = .none) ∧
    (i ≠ .init → completesAfter d t.engine (duration (d 550) i)) ∧
    lowTicks d t.engine (duration (d 550) i) = ownLowTicks (d 550) i

/-- 60_exceptions.md R109 and 42_sequencer.md R103: a command that has started always completes, within 755280 ticks, in OK or
NO_PRESENCE, whatever the line does. -/
def Obligations.StartedCommandAlwaysCompletes : Prop :=
  ∀ (d : Nat → Bool) (g : Engine), g.Inv → g.busy = true →
    ∃ n ≤ 755280, ∃ h, tickRun d n g = .ok h ∧ h.busy = false ∧ h.done = true ∧
      (h.result = .ok ∨ h.result = .noPresence)

/-! ### Results -/

/-- 20_memory.md R42, 70_reset_and_hazards.md R131: a tick that leaves the command running writes no result but PRESENCE at the end
of READ_TEMP's first reset and PRESENCE2 at the end of its second; the tick that ends a command sets DONE with it; an idle
engine keeps all results. -/
def Obligations.ResultsAppearAtCompletion : Prop :=
  ∀ (b : Bool) (g h : Engine), engineTick b g = .ok h →
    (h.busy = true →
      h.result = g.result ∧ h.done = g.done ∧ h.rxdata = g.rxdata ∧ h.tempRaw = g.tempRaw ∧ h.tempF32 = g.tempF32 ∧
      (h.presence ≠ g.presence → g.op = .readt ∧ g.step = .reset1 ∧ g.e + 1 = len g.slot) ∧
      (h.presence2 ≠ g.presence2 → g.op = .readt ∧ g.step = .reset2 ∧ g.e + 1 = len g.slot)) ∧
    (g.busy = true → h.busy = false → h.done = true ∧ h.slot = .none ∧ h.op = .none) ∧
    (g.slot = .none → h = g)

/-- R26, R27, R28: in every step but a reset, RXDATA is written only where READ_BIT or READ_BYTE completes, TEMP_RAW only where
READ_TEMP completes with OK, and TEMP_F32 only there, with the encoding of the new TEMP_RAW, or where READ_TEMP completes with
NO_PRESENCE, with the sentinel. -/
def Obligations.DataRegistersHaveTheirWriters : Prop :=
  ∀ s t : State, s.Inv → step s = .next t → s.inputs.head? ≠ some .rst →
    (t.engine.rxdata ≠ s.engine.rxdata →
      (s.engine.op = .rbit ∨ s.engine.op = .rbyte) ∧ t.engine.op = .none ∧ t.engine.result = .ok) ∧
    (t.engine.tempRaw ≠ s.engine.tempRaw →
      s.engine.op = .readt ∧ s.engine.step = .rsMsb ∧ t.engine.op = .none ∧ t.engine.result = .ok) ∧
    (t.engine.tempF32 ≠ s.engine.tempF32 → s.engine.op = .readt ∧ t.engine.op = .none ∧
      ((t.engine.result = .ok ∧ t.engine.tempF32 = f32 t.engine.tempRaw.toInt) ∨
       (t.engine.result = .noPresence ∧ t.engine.tempF32 = 0xC47A0000#32)))

/-! ### The decoder -/

/-- R105, with R104 and R106: the decoder writes TEMP_RAW and TEMP_F32 only; TEMP_RAW's value is that of (MSB << 8) | LSB in two's
complement, and TEMP_F32 is the binary32 pattern whose value is exactly a sixteenth of it. -/
def Obligations.TemperatureIsRawOverSixteen : Prop :=
  ∀ (l m : Byte) (g : Engine),
    let h := decodeTemperature l m g
    let raw16 : Nat := 256 * m.toNat + l.toNat
    h = { g with tempRaw := h.tempRaw, tempF32 := h.tempF32 } ∧
    h.tempRaw.toInt = (if m.getLsbD 7 then (raw16 : Int) - 65536 else raw16) ∧
    binary32Value h.tempF32 = (h.tempRaw.toInt : ℚ) / 16

/-- 43_decoder.md R106's worked values and R104's corner cases. -/
def Obligations.WorkedTemperatures : Prop :=
  f32 401 = 0x41C88000#32 ∧ f32 (-162) = 0xC1220000#32 ∧ f32 0 = 0x00000000#32 ∧ f32 (-1) = 0xBD800000#32 ∧
  f32 (-32768) = 0xC5000000#32 ∧ f32 32767 = 0x44FFFE00#32 ∧
  decodeTemperature 0x91#8 0x01#8 Engine.reset =
    { Engine.reset with tempRaw := 0x00000191#32, tempF32 := 0x41C88000#32 }

/-- R59: the sentinel's pattern is also a decode, of raw16 = 0xC180 and of no other value; so TEMP_F32 alone cannot tell a failure
from that reading. -/
def Obligations.SentinelIsAlsoADecode : Prop :=
  ∀ raw16 : BitVec 16, f32 raw16.toInt = 0xC47A0000#32 ↔ raw16 = 0xC180#16

/-! ### The host port -/

/-- R33: what a read of each register returns, STATUS bit by bit with LINE_READY the input's level; the engine and the rest of
the machine do not change (the word is handed to the host, log 5). -/
def Obligations.HostReadReturnsTheRegister : Prop :=
  ∀ s : State,
    (∀ off ∈ [0x00, 0x14, 0x18, 0x1C], hostRead .word off s = .next { s with hostRdata := 0x00000000#32 }) ∧
    hostRead .word 0x08 s = .next { s with hostRdata := s.engine.rxdata } ∧
    hostRead .word 0x0C s = .next { s with hostRdata := s.engine.tempRaw } ∧
    hostRead .word 0x10 s = .next { s with hostRdata := s.engine.tempF32 } ∧
    ∃ w : Word, hostRead .word 0x04 s = .next { s with hostRdata := w } ∧
      w.getLsbD 0 = s.engine.busy ∧ w.getLsbD 1 = s.engine.done ∧ w.extractLsb' 2 2 = 0#2 ∧
      w.extractLsb' 4 4 = (match s.engine.result with
        | .none => 0x0#4 | .ok => 0x1#4 | .noPresence => 0x2#4 | .notReady => 0x3#4
        | .notInitialized => 0x4#4 | .illegalCmd => 0x5#4) ∧
      w.getLsbD 8 = s.engine.presence ∧ w.getLsbD 9 = s.engine.presence2 ∧ w.getLsbD 10 = s.engine.initialized ∧
      w.getLsbD 11 = s.engine.overrun ∧ w.getLsbD 12 = s.lineReady ∧ w.extractLsb' 13 19 = 0#19

/-- R34: what a write to each register does. -/
def Obligations.HostWriteFollowsTheMap : Prop :=
  ∀ (s : State) (v : Word),
    hostWrite .word 0x00 v s = acceptCommand v s ∧
    hostWrite .word 0x04 v s = .next { s with engine := { s.engine with
      done := if v.getLsbD 1 then false else s.engine.done,
      overrun := if v.getLsbD 11 then false else s.engine.overrun } } ∧
    (∀ off ∈ [0x08, 0x0C, 0x10, 0x14, 0x18, 0x1C], hostWrite .word off v s = .next s)

/-- 20_memory.md R35, R36; 60_exceptions.md R119: an aligned whole-word access to the window is always answered, with a next state;
every narrower or misaligned access is refused by name. That an access beyond the window is refused is the model's choice (log 9). -/
def Obligations.OnlyAlignedWordAccessesAreAdmitted : Prop :=
  ∀ (s : State) (size : AccessSize) (off : Nat) (v : Word),
    (size = .word → off % 4 = 0 → off < 32 →
      (∃ t, hostRead size off s = .next t) ∧ ∃ t, hostWrite size off v s = .next t) ∧
    (size ≠ .word → hostRead size off s = .refused .narrowAccess ∧ hostWrite size off v s = .refused .narrowAccess) ∧
    (size = .word → off % 4 ≠ 0 →
      hostRead size off s = .refused .misalignedAccess ∧ hostWrite size off v s = .refused .misalignedAccess) ∧
    (size = .word → off % 4 = 0 → 32 ≤ off →
      hostRead size off s = .refused .outsideWindow ∧ hostWrite size off v s = .refused .outsideWindow)

/-- R37: side effects. A read leaves the engine, and the same read again gives the same word; a write to STATUS done twice is a
write done once; writes to other offsets have no effect; two writes of a command are two commands or a command and an overrun. -/
def Obligations.AccessesHaveTheirSideEffects : Prop :=
  ∀ (s t : State) (v : Word),
    (∀ size off, hostRead size off s = .next t → t.engine = s.engine ∧ hostRead size off t = .next t) ∧
    (hostWrite .word 0x04 v s = .next t → hostWrite .word 0x04 v t = .next t) ∧
    (∀ size off, off ≠ 0x00 → off ≠ 0x04 → hostWrite size off v s = .next t → t = s) ∧
    (hostWrite .word 0x00 v s = acceptCommand v s) ∧
    (hostWrite .word 0x00 v s = .next t → t.engine.busy = true →
      hostWrite .word 0x00 v t = .next { t with engine := { t.engine with overrun := true } })

/-- R117: `done_irq` equals STATUS.DONE. It rises only where a command completes, at its CMD write or in a tick, and falls only where
the host writes 1 to STATUS bit 1 or the next command is accepted (or at a reset). -/
def Obligations.DoneIrqFollowsCompletion : Prop :=
  (∀ g : Engine, doneIrq g = g.done) ∧
  ∀ s t : State, step s = .next t →
    (doneIrq s.engine = false → doneIrq t.engine = true →
      t.engine.busy = false ∧ t.engine.result ≠ .none ∧
        ((∃ v, s.inputs.head? = some (.hostWrite .word 0x00 v)) ∨
         s.inputs = [] ∨ ∃ b, s.inputs.head? = some (.tick b))) ∧
    (doneIrq s.engine = true → doneIrq t.engine = false →
      s.inputs.head? = some .rst ∨
      (∃ v, s.inputs.head? = some (.hostWrite .word 0x04 v) ∧ v.getLsbD 1 = true) ∨
      ∃ v, s.inputs.head? = some (.hostWrite .word 0x00 v) ∧ t.engine.busy = true)

/-! ### Reset -/

/-- R31: the value every state element holds after reset; the line is released. -/
def Obligations.ResetLeavesTheStatedValues : Prop :=
  let g := State.reset.engine
  g.busy = false ∧ g.done = false ∧ g.result = .none ∧ g.presence = false ∧ g.presence2 = false ∧
  g.initialized = false ∧ g.overrun = false ∧ g.rxdata = 0x00000000#32 ∧ g.tempRaw = 0x00000000#32 ∧
  g.tempF32 = 0x00000000#32 ∧ g.op = .none ∧ g.step = .reset1 ∧ g.slot = .none ∧ g.e = 0 ∧ g.samp = false ∧
  g.shreg = 0x00#8 ∧ g.bitn = 0 ∧ g.lsb = 0x00#8 ∧ driveLow g = false

/-- 70_reset_and_hazards.md R126, R127: `rst`, asserted in any state, running command or not, puts every element of OWT in its reset
value; the line is released and `done_irq` is 0; the outside world's fields stay and time starts anew (the model's, log 10). -/
def Obligations.RstAbortsAndResets : Prop :=
  ∀ (s : State) (rest : List Input), s.inputs = .rst :: rest →
    ∃ t, step s = .next t ∧ t.engine = State.reset.engine ∧ driveLow t.engine = false ∧ doneIrq t.engine = false ∧
      t.now = 0 ∧ t.lineReady = s.lineReady ∧ t.inputs = rest

/-- 70_reset_and_hazards.md R128: INITIALIZED changes only at a reset or at an INIT that is accepted, which makes it `line_ready`. -/
def Obligations.OnlyInitChangesInitialized : Prop :=
  ∀ s t : State, step s = .next t → t.engine.initialized ≠ s.engine.initialized →
    s.inputs.head? = some .rst ∨
    (s.inputs.head? = some (.hostWrite .word 0x00 0x00000001#32) ∧ s.engine.busy = false ∧
      t.engine.initialized = s.lineReady)

/-! ### The whole machine -/

/-- A step whose next input is a write of a legal word to CMD runs that command, in the state with the input taken; and placing a
word of the table makes the next step run its command (20_memory.md R43; log 14). -/
def Obligations.StepRunsTheDecodedCommand : Prop :=
  (∀ (s : State) (rest : List Input) (v : Word) (i : Instr),
    s.inputs = .hostWrite .word 0x00 v :: rest → decode v = .ok i → step s = exec i { s with inputs := rest }) ∧
  (∀ (s : State) (nbits w : Nat) (i : Instr), decodeTableWord nbits w = some i →
    step (s.withFetchWord nbits w) = exec i s)

/-- 20_memory.md R41: one total order. A step takes the first waiting input and no other; only a tick lets time pass, by one, only
`rst` starts it anew; with no input waiting the step is a tick with a free draw (the model's choice, log 2 and log 3). -/
def Obligations.StepTakesInputsInOrder : Prop :=
  (∀ s t : State, step s = .next t → t.inputs = s.inputs.tail ∧
    t.now = (match s.inputs with
      | [] => s.now + 1
      | .tick _ :: _ => s.now + 1
      | .rst :: _ => 0
      | _ :: _ => s.now)) ∧
  (∀ s : State, s.inputs = [] → step s = tick (Config.slaveLow s.resets s.now) s)

/-- A run of ticks through the machine's steps is the engine's run of ticks (40_bit_transport.md R66, 00_scope.md R9). -/
def Obligations.TicksThroughStepsAreTheEngines : Prop :=
  ∀ (d : Nat → Bool) (n : Nat) (s : State) (rest : List Input) (g : Engine), tickRun d n s.engine = .ok g →
    run n (s.withInputs (drawTicks d n ++ rest)) =
      .next { s with engine := g, now := s.now + n, inputs := rest }

/-- The invariant holds after reset (10_state.md R16, R18, R19, R31). -/
def Obligations.InvHoldsAfterReset : Prop := State.reset.Inv

/-- Every step keeps the invariant of OWT's state (10_state.md R16, R18, R19, R22, R26 to R28; 70_reset_and_hazards.md R131), whatever the
input: `op`, `slot`, `step` and BUSY agree, the counters are in range, RESULT and DONE fit what is running, an error code has
left what its rule says, and the data registers keep their formats. -/
def Obligations.EveryStepKeepsInv : Prop :=
  ∀ s t : State, s.Inv → step s = .next t → t.Inv

/-- 60_exceptions.md R110 and 20_memory.md R36: from a state that meets the invariant no step faults, and a step is refused only
for a host access that the model does not admit. -/
def Obligations.NoStepFaults : Prop :=
  ∀ s : State, s.Inv →
    (∀ f, step s ≠ .fault f) ∧
    (∀ r, step s = .refused r → ∃ size off,
      (size ≠ .word ∨ hostReg? off = none ∨ off % 4 ≠ 0) ∧
      (s.inputs.head? = some (.hostRead size off) ∨ ∃ v, s.inputs.head? = some (.hostWrite size off v)))

/-- 60_exceptions.md R115, R118, R119, R124: the host and the pin cannot disturb a running command. Any admitted accesses and pin
changes, placed anywhere between the ticks of a command that is still running, leave the engine as the ticks alone do, but for
OVERRUN. -/
def Obligations.HostCannotDisturbARunningCommand : Prop :=
  ∀ (s : State) (l : List Input) (d : Nat → Bool) (n : Nat),
    s.Inv → (∀ i ∈ l, i.quiet = true) → l.filterMap Input.draw? = (List.range n).map d →
    (∀ j ≤ n, ∃ h, tickRun d j s.engine = .ok h ∧ h.busy = true) →
    ∃ t h, run l.length (s.withInputs l) = .next t ∧ tickRun d n s.engine = .ok h ∧
      { t.engine with overrun := h.overrun } = h ∧ t.now = s.now + n
end

