-- ==== Sys2Proof/Laws/State.lean ====
section
/-! SUPPORT. What each shared operation does to each field of the engine, one lemma per field, so that no proof unfolds a record
update. -/

namespace Sys2Proof.Machine

variable (k : SlotKind) (res : ResultCode) (b l m : Byte) (v : Word) (ready : Bool) (g : Engine)

/-! ### startSlot -/

@[simp] theorem startSlot_busy : (startSlot k g).busy = g.busy := rfl
@[simp] theorem startSlot_done : (startSlot k g).done = g.done := rfl
@[simp] theorem startSlot_result : (startSlot k g).result = g.result := rfl
@[simp] theorem startSlot_presence : (startSlot k g).presence = g.presence := rfl
@[simp] theorem startSlot_presence2 : (startSlot k g).presence2 = g.presence2 := rfl
@[simp] theorem startSlot_initialized : (startSlot k g).initialized = g.initialized := rfl
@[simp] theorem startSlot_overrun : (startSlot k g).overrun = g.overrun := rfl
@[simp] theorem startSlot_rxdata : (startSlot k g).rxdata = g.rxdata := rfl
@[simp] theorem startSlot_tempRaw : (startSlot k g).tempRaw = g.tempRaw := rfl
@[simp] theorem startSlot_tempF32 : (startSlot k g).tempF32 = g.tempF32 := rfl
@[simp] theorem startSlot_op : (startSlot k g).op = g.op := rfl
@[simp] theorem startSlot_step : (startSlot k g).step = g.step := rfl
@[simp] theorem startSlot_slot : (startSlot k g).slot = k := rfl
@[simp] theorem startSlot_e : (startSlot k g).e = 0 := rfl
@[simp] theorem startSlot_samp : (startSlot k g).samp = g.samp := rfl
@[simp] theorem startSlot_shreg : (startSlot k g).shreg = g.shreg := rfl
@[simp] theorem startSlot_bitn : (startSlot k g).bitn = g.bitn := rfl
@[simp] theorem startSlot_lsb : (startSlot k g).lsb = g.lsb := rfl

/-! ### finish -/

@[simp] theorem finish_busy : (finish res g).busy = false := rfl
@[simp] theorem finish_done : (finish res g).done = true := rfl
@[simp] theorem finish_result : (finish res g).result = res := rfl
@[simp] theorem finish_presence : (finish res g).presence = g.presence := rfl
@[simp] theorem finish_presence2 : (finish res g).presence2 = g.presence2 := rfl
@[simp] theorem finish_initialized : (finish res g).initialized = g.initialized := rfl
@[simp] theorem finish_overrun : (finish res g).overrun = g.overrun := rfl
@[simp] theorem finish_rxdata : (finish res g).rxdata = g.rxdata := rfl
@[simp] theorem finish_tempRaw : (finish res g).tempRaw = g.tempRaw := rfl
@[simp] theorem finish_tempF32 : (finish res g).tempF32 = g.tempF32 := rfl
@[simp] theorem finish_op : (finish res g).op = Op.none := rfl
@[simp] theorem finish_step : (finish res g).step = g.step := rfl
@[simp] theorem finish_slot : (finish res g).slot = SlotKind.none := rfl
@[simp] theorem finish_e : (finish res g).e = 0 := rfl
@[simp] theorem finish_samp : (finish res g).samp = g.samp := rfl
@[simp] theorem finish_shreg : (finish res g).shreg = g.shreg := rfl
@[simp] theorem finish_bitn : (finish res g).bitn = g.bitn := rfl
@[simp] theorem finish_lsb : (finish res g).lsb = g.lsb := rfl

/-! ### startWriteByte -/

@[simp] theorem startWriteByte_busy : (startWriteByte b g).busy = g.busy := rfl
@[simp] theorem startWriteByte_done : (startWriteByte b g).done = g.done := rfl
@[simp] theorem startWriteByte_result : (startWriteByte b g).result = g.result := rfl
@[simp] theorem startWriteByte_presence : (startWriteByte b g).presence = g.presence := rfl
@[simp] theorem startWriteByte_presence2 : (startWriteByte b g).presence2 = g.presence2 := rfl
@[simp] theorem startWriteByte_initialized : (startWriteByte b g).initialized = g.initialized := rfl
@[simp] theorem startWriteByte_overrun : (startWriteByte b g).overrun = g.overrun := rfl
@[simp] theorem startWriteByte_rxdata : (startWriteByte b g).rxdata = g.rxdata := rfl
@[simp] theorem startWriteByte_tempRaw : (startWriteByte b g).tempRaw = g.tempRaw := rfl
@[simp] theorem startWriteByte_tempF32 : (startWriteByte b g).tempF32 = g.tempF32 := rfl
@[simp] theorem startWriteByte_op : (startWriteByte b g).op = g.op := rfl
@[simp] theorem startWriteByte_step : (startWriteByte b g).step = g.step := rfl
@[simp] theorem startWriteByte_slot : (startWriteByte b g).slot = bitSlot (b.getLsbD 0) := rfl
@[simp] theorem startWriteByte_e : (startWriteByte b g).e = 0 := rfl
@[simp] theorem startWriteByte_samp : (startWriteByte b g).samp = g.samp := rfl
@[simp] theorem startWriteByte_shreg : (startWriteByte b g).shreg = b := rfl
@[simp] theorem startWriteByte_bitn : (startWriteByte b g).bitn = 0 := rfl
@[simp] theorem startWriteByte_lsb : (startWriteByte b g).lsb = g.lsb := rfl

/-! ### startReadByte -/

@[simp] theorem startReadByte_busy : (startReadByte g).busy = g.busy := rfl
@[simp] theorem startReadByte_done : (startReadByte g).done = g.done := rfl
@[simp] theorem startReadByte_result : (startReadByte g).result = g.result := rfl
@[simp] theorem startReadByte_presence : (startReadByte g).presence = g.presence := rfl
@[simp] theorem startReadByte_presence2 : (startReadByte g).presence2 = g.presence2 := rfl
@[simp] theorem startReadByte_initialized : (startReadByte g).initialized = g.initialized := rfl
@[simp] theorem startReadByte_overrun : (startReadByte g).overrun = g.overrun := rfl
@[simp] theorem startReadByte_rxdata : (startReadByte g).rxdata = g.rxdata := rfl
@[simp] theorem startReadByte_tempRaw : (startReadByte g).tempRaw = g.tempRaw := rfl
@[simp] theorem startReadByte_tempF32 : (startReadByte g).tempF32 = g.tempF32 := rfl
@[simp] theorem startReadByte_op : (startReadByte g).op = g.op := rfl
@[simp] theorem startReadByte_step : (startReadByte g).step = g.step := rfl
@[simp] theorem startReadByte_slot : (startReadByte g).slot = SlotKind.rd := rfl
@[simp] theorem startReadByte_e : (startReadByte g).e = 0 := rfl
@[simp] theorem startReadByte_samp : (startReadByte g).samp = g.samp := rfl
@[simp] theorem startReadByte_shreg : (startReadByte g).shreg = 0x00#8 := rfl
@[simp] theorem startReadByte_bitn : (startReadByte g).bitn = 0 := rfl
@[simp] theorem startReadByte_lsb : (startReadByte g).lsb = g.lsb := rfl

/-! ### shiftOut -/

@[simp] theorem shiftOut_busy : (shiftOut g).busy = g.busy := rfl
@[simp] theorem shiftOut_done : (shiftOut g).done = g.done := rfl
@[simp] theorem shiftOut_result : (shiftOut g).result = g.result := rfl
@[simp] theorem shiftOut_presence : (shiftOut g).presence = g.presence := rfl
@[simp] theorem shiftOut_presence2 : (shiftOut g).presence2 = g.presence2 := rfl
@[simp] theorem shiftOut_initialized : (shiftOut g).initialized = g.initialized := rfl
@[simp] theorem shiftOut_overrun : (shiftOut g).overrun = g.overrun := rfl
@[simp] theorem shiftOut_rxdata : (shiftOut g).rxdata = g.rxdata := rfl
@[simp] theorem shiftOut_tempRaw : (shiftOut g).tempRaw = g.tempRaw := rfl
@[simp] theorem shiftOut_tempF32 : (shiftOut g).tempF32 = g.tempF32 := rfl
@[simp] theorem shiftOut_op : (shiftOut g).op = g.op := rfl
@[simp] theorem shiftOut_step : (shiftOut g).step = g.step := rfl
@[simp] theorem shiftOut_slot : (shiftOut g).slot = g.slot := rfl
@[simp] theorem shiftOut_e : (shiftOut g).e = g.e := rfl
@[simp] theorem shiftOut_samp : (shiftOut g).samp = g.samp := rfl
@[simp] theorem shiftOut_shreg : (shiftOut g).shreg = g.shreg >>> 1 := rfl
@[simp] theorem shiftOut_bitn : (shiftOut g).bitn = g.bitn + 1 := rfl
@[simp] theorem shiftOut_lsb : (shiftOut g).lsb = g.lsb := rfl

/-! ### shiftIn -/

@[simp] theorem shiftIn_busy : (shiftIn g).busy = g.busy := rfl
@[simp] theorem shiftIn_done : (shiftIn g).done = g.done := rfl
@[simp] theorem shiftIn_result : (shiftIn g).result = g.result := rfl
@[simp] theorem shiftIn_presence : (shiftIn g).presence = g.presence := rfl
@[simp] theorem shiftIn_presence2 : (shiftIn g).presence2 = g.presence2 := rfl
@[simp] theorem shiftIn_initialized : (shiftIn g).initialized = g.initialized := rfl
@[simp] theorem shiftIn_overrun : (shiftIn g).overrun = g.overrun := rfl
@[simp] theorem shiftIn_rxdata : (shiftIn g).rxdata = g.rxdata := rfl
@[simp] theorem shiftIn_tempRaw : (shiftIn g).tempRaw = g.tempRaw := rfl
@[simp] theorem shiftIn_tempF32 : (shiftIn g).tempF32 = g.tempF32 := rfl
@[simp] theorem shiftIn_op : (shiftIn g).op = g.op := rfl
@[simp] theorem shiftIn_step : (shiftIn g).step = g.step := rfl
@[simp] theorem shiftIn_slot : (shiftIn g).slot = g.slot := rfl
@[simp] theorem shiftIn_e : (shiftIn g).e = g.e := rfl
@[simp] theorem shiftIn_samp : (shiftIn g).samp = g.samp := rfl
@[simp] theorem shiftIn_shreg : (shiftIn g).shreg = (g.shreg >>> 1) ||| ((BitVec.ofBool g.samp).setWidth 8 <<< 7) := rfl
@[simp] theorem shiftIn_bitn : (shiftIn g).bitn = g.bitn + 1 := rfl
@[simp] theorem shiftIn_lsb : (shiftIn g).lsb = g.lsb := rfl

/-! ### decodeTemperature -/

@[simp] theorem decodeTemperature_busy : (decodeTemperature l m g).busy = g.busy := rfl
@[simp] theorem decodeTemperature_done : (decodeTemperature l m g).done = g.done := rfl
@[simp] theorem decodeTemperature_result : (decodeTemperature l m g).result = g.result := rfl
@[simp] theorem decodeTemperature_presence : (decodeTemperature l m g).presence = g.presence := rfl
@[simp] theorem decodeTemperature_presence2 : (decodeTemperature l m g).presence2 = g.presence2 := rfl
@[simp] theorem decodeTemperature_initialized : (decodeTemperature l m g).initialized = g.initialized := rfl
@[simp] theorem decodeTemperature_overrun : (decodeTemperature l m g).overrun = g.overrun := rfl
@[simp] theorem decodeTemperature_rxdata : (decodeTemperature l m g).rxdata = g.rxdata := rfl
@[simp] theorem decodeTemperature_tempRaw : (decodeTemperature l m g).tempRaw = (assembleRaw l m).signExtend 32 := rfl
@[simp] theorem decodeTemperature_tempF32 : (decodeTemperature l m g).tempF32 = f32 (assembleRaw l m).toInt := rfl
@[simp] theorem decodeTemperature_op : (decodeTemperature l m g).op = g.op := rfl
@[simp] theorem decodeTemperature_step : (decodeTemperature l m g).step = g.step := rfl
@[simp] theorem decodeTemperature_slot : (decodeTemperature l m g).slot = g.slot := rfl
@[simp] theorem decodeTemperature_e : (decodeTemperature l m g).e = g.e := rfl
@[simp] theorem decodeTemperature_samp : (decodeTemperature l m g).samp = g.samp := rfl
@[simp] theorem decodeTemperature_shreg : (decodeTemperature l m g).shreg = g.shreg := rfl
@[simp] theorem decodeTemperature_bitn : (decodeTemperature l m g).bitn = g.bitn := rfl
@[simp] theorem decodeTemperature_lsb : (decodeTemperature l m g).lsb = g.lsb := rfl

/-! ### markOverrun -/

@[simp] theorem markOverrun_busy : (markOverrun g).busy = g.busy := rfl
@[simp] theorem markOverrun_done : (markOverrun g).done = g.done := rfl
@[simp] theorem markOverrun_result : (markOverrun g).result = g.result := rfl
@[simp] theorem markOverrun_presence : (markOverrun g).presence = g.presence := rfl
@[simp] theorem markOverrun_presence2 : (markOverrun g).presence2 = g.presence2 := rfl
@[simp] theorem markOverrun_initialized : (markOverrun g).initialized = g.initialized := rfl
@[simp] theorem markOverrun_overrun : (markOverrun g).overrun = true := rfl
@[simp] theorem markOverrun_rxdata : (markOverrun g).rxdata = g.rxdata := rfl
@[simp] theorem markOverrun_tempRaw : (markOverrun g).tempRaw = g.tempRaw := rfl
@[simp] theorem markOverrun_tempF32 : (markOverrun g).tempF32 = g.tempF32 := rfl
@[simp] theorem markOverrun_op : (markOverrun g).op = g.op := rfl
@[simp] theorem markOverrun_step : (markOverrun g).step = g.step := rfl
@[simp] theorem markOverrun_slot : (markOverrun g).slot = g.slot := rfl
@[simp] theorem markOverrun_e : (markOverrun g).e = g.e := rfl
@[simp] theorem markOverrun_samp : (markOverrun g).samp = g.samp := rfl
@[simp] theorem markOverrun_shreg : (markOverrun g).shreg = g.shreg := rfl
@[simp] theorem markOverrun_bitn : (markOverrun g).bitn = g.bitn := rfl
@[simp] theorem markOverrun_lsb : (markOverrun g).lsb = g.lsb := rfl

/-! ### completeAtOnce -/

@[simp] theorem completeAtOnce_busy : (completeAtOnce res g).busy = g.busy := rfl
@[simp] theorem completeAtOnce_done : (completeAtOnce res g).done = true := rfl
@[simp] theorem completeAtOnce_result : (completeAtOnce res g).result = res := rfl
@[simp] theorem completeAtOnce_presence : (completeAtOnce res g).presence = g.presence := rfl
@[simp] theorem completeAtOnce_presence2 : (completeAtOnce res g).presence2 = g.presence2 := rfl
@[simp] theorem completeAtOnce_initialized : (completeAtOnce res g).initialized = g.initialized := rfl
@[simp] theorem completeAtOnce_overrun : (completeAtOnce res g).overrun = g.overrun := rfl
@[simp] theorem completeAtOnce_rxdata : (completeAtOnce res g).rxdata = g.rxdata := rfl
@[simp] theorem completeAtOnce_tempRaw : (completeAtOnce res g).tempRaw = g.tempRaw := rfl
@[simp] theorem completeAtOnce_tempF32 : (completeAtOnce res g).tempF32 = g.tempF32 := rfl
@[simp] theorem completeAtOnce_op : (completeAtOnce res g).op = g.op := rfl
@[simp] theorem completeAtOnce_step : (completeAtOnce res g).step = g.step := rfl
@[simp] theorem completeAtOnce_slot : (completeAtOnce res g).slot = g.slot := rfl
@[simp] theorem completeAtOnce_e : (completeAtOnce res g).e = g.e := rfl
@[simp] theorem completeAtOnce_samp : (completeAtOnce res g).samp = g.samp := rfl
@[simp] theorem completeAtOnce_shreg : (completeAtOnce res g).shreg = g.shreg := rfl
@[simp] theorem completeAtOnce_bitn : (completeAtOnce res g).bitn = g.bitn := rfl
@[simp] theorem completeAtOnce_lsb : (completeAtOnce res g).lsb = g.lsb := rfl

/-! ### takeLineReady -/

@[simp] theorem takeLineReady_busy : (takeLineReady ready g).busy = g.busy := rfl
@[simp] theorem takeLineReady_done : (takeLineReady ready g).done = true := rfl
@[simp] theorem takeLineReady_result : (takeLineReady ready g).result = (if ready then .ok else .notReady) := rfl
@[simp] theorem takeLineReady_presence : (takeLineReady ready g).presence = g.presence := rfl
@[simp] theorem takeLineReady_presence2 : (takeLineReady ready g).presence2 = g.presence2 := rfl
@[simp] theorem takeLineReady_initialized : (takeLineReady ready g).initialized = ready := rfl
@[simp] theorem takeLineReady_overrun : (takeLineReady ready g).overrun = g.overrun := rfl
@[simp] theorem takeLineReady_rxdata : (takeLineReady ready g).rxdata = g.rxdata := rfl
@[simp] theorem takeLineReady_tempRaw : (takeLineReady ready g).tempRaw = g.tempRaw := rfl
@[simp] theorem takeLineReady_tempF32 : (takeLineReady ready g).tempF32 = g.tempF32 := rfl
@[simp] theorem takeLineReady_op : (takeLineReady ready g).op = g.op := rfl
@[simp] theorem takeLineReady_step : (takeLineReady ready g).step = g.step := rfl
@[simp] theorem takeLineReady_slot : (takeLineReady ready g).slot = g.slot := rfl
@[simp] theorem takeLineReady_e : (takeLineReady ready g).e = g.e := rfl
@[simp] theorem takeLineReady_samp : (takeLineReady ready g).samp = g.samp := rfl
@[simp] theorem takeLineReady_shreg : (takeLineReady ready g).shreg = g.shreg := rfl
@[simp] theorem takeLineReady_bitn : (takeLineReady ready g).bitn = g.bitn := rfl
@[simp] theorem takeLineReady_lsb : (takeLineReady ready g).lsb = g.lsb := rfl

/-! ### writeStatus -/

@[simp] theorem writeStatus_busy : (writeStatus v g).busy = g.busy := rfl
@[simp] theorem writeStatus_done : (writeStatus v g).done = (g.done && !v.getLsbD 1) := rfl
@[simp] theorem writeStatus_result : (writeStatus v g).result = g.result := rfl
@[simp] theorem writeStatus_presence : (writeStatus v g).presence = g.presence := rfl
@[simp] theorem writeStatus_presence2 : (writeStatus v g).presence2 = g.presence2 := rfl
@[simp] theorem writeStatus_initialized : (writeStatus v g).initialized = g.initialized := rfl
@[simp] theorem writeStatus_overrun : (writeStatus v g).overrun = (g.overrun && !v.getLsbD 11) := rfl
@[simp] theorem writeStatus_rxdata : (writeStatus v g).rxdata = g.rxdata := rfl
@[simp] theorem writeStatus_tempRaw : (writeStatus v g).tempRaw = g.tempRaw := rfl
@[simp] theorem writeStatus_tempF32 : (writeStatus v g).tempF32 = g.tempF32 := rfl
@[simp] theorem writeStatus_op : (writeStatus v g).op = g.op := rfl
@[simp] theorem writeStatus_step : (writeStatus v g).step = g.step := rfl
@[simp] theorem writeStatus_slot : (writeStatus v g).slot = g.slot := rfl
@[simp] theorem writeStatus_e : (writeStatus v g).e = g.e := rfl
@[simp] theorem writeStatus_samp : (writeStatus v g).samp = g.samp := rfl
@[simp] theorem writeStatus_shreg : (writeStatus v g).shreg = g.shreg := rfl
@[simp] theorem writeStatus_bitn : (writeStatus v g).bitn = g.bitn := rfl
@[simp] theorem writeStatus_lsb : (writeStatus v g).lsb = g.lsb := rfl

/-! ### The state around the engine -/

variable (s : State)

@[simp] theorem assertRst_engine : (assertRst s).engine = Engine.reset := rfl
@[simp] theorem assertRst_lineReady : (assertRst s).lineReady = s.lineReady := rfl
@[simp] theorem assertRst_inputs : (assertRst s).inputs = s.inputs := rfl
@[simp] theorem assertRst_hostRdata : (assertRst s).hostRdata = s.hostRdata := rfl
@[simp] theorem assertRst_now : (assertRst s).now = 0 := rfl
@[simp] theorem assertRst_resets : (assertRst s).resets = s.resets + 1 := rfl

@[simp] theorem withFetchWord_engine (n w : Nat) : (s.withFetchWord n w).engine = s.engine := rfl
@[simp] theorem withFetchWord_lineReady (n w : Nat) : (s.withFetchWord n w).lineReady = s.lineReady := rfl
@[simp] theorem withFetchWord_inputs (n w : Nat) :
    (s.withFetchWord n w).inputs = .hostWrite .word 0x00 (tableWord n w) :: s.inputs := rfl
@[simp] theorem withFetchWord_hostRdata (n w : Nat) : (s.withFetchWord n w).hostRdata = s.hostRdata := rfl
@[simp] theorem withFetchWord_now (n w : Nat) : (s.withFetchWord n w).now = s.now := rfl
@[simp] theorem withFetchWord_resets (n w : Nat) : (s.withFetchWord n w).resets = s.resets := rfl

end Sys2Proof.Machine
end

