-- ==== Sys2Proof/Laws/Ops.lean ====
section
/-! SUPPORT. What each shared operation can do, said once: the provers cite these instead of unfolding the operation. -/

namespace Sys2Proof.Machine

/-- A write slot of a byte completes (R80): the byte is finished, or the next bit's slot starts. -/
theorem writeByteSlotDone_cases (g : Engine) :
    (g.bitn = 7 ∧ writeByteSlotDone g = (true, shiftOut g)) ∨
    (g.bitn ≠ 7 ∧ writeByteSlotDone g =
      (false, startSlot (bitSlot ((g.shreg >>> 1).getLsbD 0)) (shiftOut g))) := by
  by_cases h : g.bitn = 7 <;> simp [writeByteSlotDone, h]

/-- A read slot of a byte completes (R84): the byte is finished, or the next read slot starts. -/
theorem readByteSlotDone_cases (g : Engine) :
    (g.bitn = 7 ∧ readByteSlotDone g = (true, shiftIn g)) ∨
    (g.bitn ≠ 7 ∧ readByteSlotDone g = (false, startSlot .rd (shiftIn g))) := by
  by_cases h : g.bitn = 7 <;> simp [readByteSlotDone, h]

/-- The serializer inside READ_TEMP (R95): the byte goes on, or the sequence does. -/
theorem afterWriteByte_cases (f : Engine → Engine) (g : Engine) :
    (g.bitn = 7 ∧ afterWriteByte f g = f (shiftOut g)) ∨
    (g.bitn ≠ 7 ∧ afterWriteByte f g =
      startSlot (bitSlot ((g.shreg >>> 1).getLsbD 0)) (shiftOut g)) := by
  obtain ⟨h, e⟩ | ⟨h, e⟩ := writeByteSlotDone_cases g <;> simp [afterWriteByte, h, e]

/-- The deserializer inside READ_TEMP (R95): the byte goes on, or the sequence does. -/
theorem afterReadByte_cases (f : Engine → Engine) (g : Engine) :
    (g.bitn = 7 ∧ afterReadByte f g = f (shiftIn g)) ∨
    (g.bitn ≠ 7 ∧ afterReadByte f g = startSlot .rd (shiftIn g)) := by
  obtain ⟨h, e⟩ | ⟨h, e⟩ := readByteSlotDone_cases g <;> simp [afterReadByte, h, e]

/-- WRITE_BYTE when a slot completes: it goes on to the next bit, or ends. -/
theorem writeByteCmdSlotDone_cases (g : Engine) :
    (g.bitn = 7 ∧ writeByteCmdSlotDone g = finish .ok (shiftOut g)) ∨
    (g.bitn ≠ 7 ∧ writeByteCmdSlotDone g =
      startSlot (bitSlot ((g.shreg >>> 1).getLsbD 0)) (shiftOut g)) := by
  obtain ⟨h, e⟩ | ⟨h, e⟩ := writeByteSlotDone_cases g <;> simp [writeByteCmdSlotDone, h, e]

/-- READ_BYTE when a slot completes: it goes on to the next bit, or ends and writes RXDATA. -/
theorem readByteCmdSlotDone_cases (g : Engine) :
    (g.bitn = 7 ∧ readByteCmdSlotDone g =
      finish .ok { shiftIn g with rxdata := (shiftIn g).shreg.setWidth 32 }) ∨
    (g.bitn ≠ 7 ∧ readByteCmdSlotDone g = startSlot .rd (shiftIn g)) := by
  obtain ⟨h, e⟩ | ⟨h, e⟩ := readByteSlotDone_cases g <;> simp [readByteCmdSlotDone, h, e]

/-- A slot the engine can be in when a bit is sent. -/
theorem bitSlot_cases (b : Bool) : (b = true ∧ bitSlot b = .w1) ∨ (b = false ∧ bitSlot b = .w0) := by
  cases b <;> simp [bitSlot]

@[simp] theorem bitSlot_ne_none (b : Bool) : bitSlot b ≠ .none := by cases b <;> simp [bitSlot]
@[simp] theorem len_bitSlot (b : Bool) : len (bitSlot b) = 70 := by cases b <;> rfl
@[simp] theorem sampleAt_bitSlot (b : Bool) : sampleAt (bitSlot b) = none := by cases b <;> rfl

@[simp] theorem len_rst : len .rst = 960 := rfl
@[simp] theorem len_w1 : len .w1 = 70 := rfl
@[simp] theorem len_w0 : len .w0 = 70 := rfl
@[simp] theorem len_rd : len .rd = 70 := rfl
@[simp] theorem len_cwait : len .cwait = 750000 := rfl
@[simp] theorem sampleAt_rst : sampleAt .rst = some 550 := rfl
@[simp] theorem sampleAt_rd : sampleAt .rd = some 15 := rfl
@[simp] theorem sampleAt_cwait : sampleAt .cwait = none := rfl

/-- Every slot lasts at least one tick. -/
theorem len_pos {k : SlotKind} (h : k ≠ .none) : 0 < len k := by cases k <;> simp_all [len]

/-- A slot samples while the engine has released the line and before the slot's last tick (R62, R116). -/
theorem sampleAt_released {k : SlotKind} {n : Nat} (h : sampleAt k = some n) :
    drive k n = false ∧ n + 1 < len k := by
  cases k <;> simp [sampleAt] at h <;> subst h <;> decide

/-- Accepting a command other than INIT (R89, R90): an overrun, a start, or NOT_INITIALIZED. -/
theorem beginCommand_cases (start : Engine → Engine) (g : Engine) :
    (g.busy = true ∧ beginCommand start g = markOverrun g) ∨
    (g.busy = false ∧ g.initialized = true ∧
      beginCommand start g = start { g with done := false, busy := true, result := .none }) ∨
    (g.busy = false ∧ g.initialized = false ∧ beginCommand start g = completeAtOnce .notInitialized g) := by
  cases hb : g.busy <;> cases hi : g.initialized <;> simp [beginCommand, hb, hi]

/-- An illegal word (R89, R114): an overrun, or ILLEGAL_CMD. -/
theorem rejectIllegal_cases (g : Engine) :
    (g.busy = true ∧ rejectIllegal g = markOverrun g) ∨
    (g.busy = false ∧ rejectIllegal g = completeAtOnce .illegalCmd g) := by
  cases hb : g.busy <;> simp [rejectIllegal, hb]

/-- What a host access reaches (R35, R36). -/
theorem hostAccess_ok_iff {size : AccessSize} {off : Nat} {r : HostReg} :
    hostAccess size off = .ok r ↔ size = .word ∧ off % 4 = 0 ∧ hostReg? off = some r := by
  unfold hostAccess
  by_cases hs : size = .word <;> by_cases ha : off % 4 = 0 <;> simp [hs, ha]
  cases hostReg? off <;> simp

end Sys2Proof.Machine
end

