-- ==== Sys2Proof/Laws/Tick.lean ====
section
/-! SUPPORT. The engine's tick and runs of ticks: an inversion lemma for one tick, and the lemma that runs a whole slot at once, so
that no proof steps through 750000 ticks. -/

namespace Sys2Proof.Machine

/-- The engine `n` ticks into its slot: the counter stands at `n`, and `samp` has the level of the sample instant once that
has passed. -/
def inSlot (d : Nat → Bool) (n : Nat) (g : Engine) : Engine :=
  { g with
    e := n
    samp := match sampleAt g.slot with
      | some k => if k < n then !d k else g.samp
      | none => g.samp }

/-- An idle engine does not change (R65). -/
theorem engineTick_idle {g : Engine} (h : g.slot = .none) (b : Bool) : engineTick b g = .ok g := by
  simp [engineTick, h]

theorem takeSample_slot (b : Bool) (g : Engine) : (takeSample b g).slot = g.slot := by
  unfold takeSample; split <;> rfl

theorem takeSample_e (b : Bool) (g : Engine) : (takeSample b g).e = g.e := by
  unfold takeSample; split <;> rfl

/-- A tick that does not end the slot (R66). -/
theorem engineTick_mid {g : Engine} (h : g.slot ≠ .none) (he : g.e + 1 ≠ len g.slot) (b : Bool) :
    engineTick b g = .ok { takeSample b g with e := g.e + 1 } := by
  simp [engineTick, h, he, takeSample_slot, takeSample_e]

/-- A tick that ends the slot (R66, R68). -/
theorem engineTick_last {g : Engine} (h : g.slot ≠ .none) (he : g.e + 1 = len g.slot) (b : Bool) :
    engineTick b g = slotDone { takeSample b g with e := g.e + 1 } := by
  simp [engineTick, h, he, takeSample_slot, takeSample_e]

/-- Everything a tick can do. -/
theorem engineTick_cases {b : Bool} {g h : Engine} (ht : engineTick b g = .ok h) :
    (g.slot = .none ∧ h = g) ∨
    (g.slot ≠ .none ∧ g.e + 1 ≠ len g.slot ∧ h = { takeSample b g with e := g.e + 1 }) ∨
    (g.slot ≠ .none ∧ g.e + 1 = len g.slot ∧ slotDone { takeSample b g with e := g.e + 1 } = .ok h) := by
  by_cases hs : g.slot = .none
  · rw [engineTick_idle hs] at ht; exact .inl ⟨hs, (Except.ok.inj ht).symm⟩
  · by_cases he : g.e + 1 = len g.slot
    · rw [engineTick_last hs he] at ht; exact .inr (.inr ⟨hs, he, ht⟩)
    · rw [engineTick_mid hs he] at ht; exact .inr (.inl ⟨hs, he, (Except.ok.inj ht).symm⟩)

/-- A tick stops the machine only where a slot ends without a command (log 8). -/
theorem engineTick_error {b : Bool} {g : Engine} {f : Fault} (ht : engineTick b g = .error f) :
    g.slot ≠ .none ∧ g.op = .none := by
  have hop : (takeSample b g).op = g.op := by unfold takeSample; split <;> rfl
  by_cases hs : g.slot = .none
  · simp [engineTick_idle hs] at ht
  · refine ⟨hs, ?_⟩
    by_cases he : g.e + 1 = len g.slot
    · rw [engineTick_last hs he] at ht
      unfold slotDone at ht
      split at ht
      · rename_i h; exact hop ▸ h
      all_goals cases ht
    · simp [engineTick_mid hs he] at ht

/-- A run of ticks in two parts. -/
theorem tickRun_add (d : Nat → Bool) (m n : Nat) (g : Engine) :
    tickRun d (m + n) g =
      match tickRun d m g with
      | .ok h => tickRun (fun j => d (m + j)) n h
      | .error f => .error f := by
  induction n with
  | zero => rw [Nat.add_zero]; cases tickRun d m g <;> rfl
  | succ n ih =>
    rw [← Nat.add_assoc, tickRun, ih]
    cases h : tickRun d m g <;> simp [tickRun]

/-- A run continued from where its first part ended. -/
theorem tickRun_then {d : Nat → Bool} {m : Nat} {g h : Engine} (hm : tickRun d m g = .ok h) (n : Nat) :
    tickRun d (m + n) g = tickRun (fun j => d (m + j)) n h := by
  rw [tickRun_add, hm]

/-- An idle engine stays as it is for ever. -/
theorem tickRun_idle {g : Engine} (h : g.slot = .none) (d : Nat → Bool) (n : Nat) : tickRun d n g = .ok g := by
  induction n with
  | zero => rfl
  | succ n ih => rw [tickRun, ih]; exact engineTick_idle h _

/-- One more tick inside a slot moves the counter and takes the sample where it is due. -/
theorem takeSample_inSlot (d : Nat → Bool) (n : Nat) (g : Engine) :
    { takeSample (d n) (inSlot d n g) with e := n + 1 } = inSlot d (n + 1) g := by
  unfold takeSample
  split
  · rename_i h
    have hk : sampleAt g.slot = some n := h
    have hd : drive g.slot n = false := (sampleAt_released hk).1
    simp [inSlot, hk, driveLow, line, hd]
  · rename_i h
    have hk : sampleAt g.slot ≠ some n := h
    cases hs : sampleAt g.slot with
    | none => simp [inSlot, hs]
    | some k =>
      have : k ≠ n := fun hkn => hk (hkn ▸ hs)
      by_cases hlt : k < n
      · simp [inSlot, hs, hlt, Nat.lt_succ_of_lt hlt]
      · have : ¬ k < n + 1 := by omega
        simp [inSlot, hs, hlt, this]

/-- Inside a slot (R66): the first `n` ticks, for `n` below the slot's length. -/
theorem tickRun_inSlot {g : Engine} (hs : g.slot ≠ .none) (he : g.e = 0) (d : Nat → Bool) :
    ∀ n < len g.slot, tickRun d n g = .ok (inSlot d n g)
  | 0, _ => by
    have : inSlot d 0 g = g := by
      obtain ⟨⟩ := g
      subst he
      unfold inSlot
      cases hk : sampleAt _ <;> simp
    rw [this]; rfl
  | n + 1, hn => by
    have h1 : (inSlot d n g).slot = g.slot := rfl
    have h2 : (inSlot d n g).e = n := rfl
    simp only [tickRun, tickRun_inSlot hs he d n (by omega)]
    rw [engineTick_mid (by rw [h1]; exact hs) (by rw [h1, h2]; omega), h2, takeSample_inSlot]

/-- A whole slot (R66, R68): after its last tick `SlotDone` decides. -/
theorem tickRun_slot {g : Engine} (hs : g.slot ≠ .none) (he : g.e = 0) (d : Nat → Bool) :
    tickRun d (len g.slot) g = slotDone (inSlot d (len g.slot) g) := by
  obtain ⟨n, hn⟩ : ∃ n, len g.slot = n + 1 := ⟨len g.slot - 1, by have := len_pos hs; omega⟩
  have h1 : (inSlot d n g).slot = g.slot := rfl
  have h2 : (inSlot d n g).e = n := rfl
  simp only [hn, tickRun, tickRun_inSlot hs he d n (by omega)]
  rw [engineTick_last (by rw [h1]; exact hs) (by rw [h1, h2]; omega), h2, takeSample_inSlot]

/-- The draws a run uses are those of its own ticks. -/
theorem tickRun_congr {d d' : Nat → Bool} {n : Nat} (h : ∀ j < n, d j = d' j) (g : Engine) :
    tickRun d n g = tickRun d' n g := by
  induction n with
  | zero => rfl
  | succ n ih =>
    rw [tickRun, tickRun, ih (fun j hj => h j (by omega)), h n (by omega)]

end Sys2Proof.Machine
end

