-- ==== Sys2Proof/Laws/Byte.lean ====
section
/-! SUPPORT. A whole byte on the line: eight write slots or eight read slots run at once, for a command of its own and inside
READ_TEMP alike (41_byte_transport.md R81, R85). -/

namespace Sys2Proof.Machine

/-! ### Writing -/

theorem writeByteCmdSlotDone_eq : writeByteCmdSlotDone = afterWriteByte (finish .ok) := rfl

theorem readByteCmdSlotDone_eq :
    readByteCmdSlotDone = afterReadByte (fun g => finish .ok { g with rxdata := g.shreg.setWidth 32 }) := rfl

/-- A write slot samples nothing: only the counter moves. -/
theorem inSlot_bitSlot (d : Nat → Bool) (n : Nat) {g : Engine} {b : Bool} (h : g.slot = bitSlot b) :
    inSlot d n g = { g with e := n } := by
  simp [inSlot, h]

/-- The engine at the start of bit `i` of a byte `n` that is being written. -/
def writingBit (n : Byte) (i : Nat) (g : Engine) : Engine :=
  { g with shreg := n >>> i, bitn := i, slot := bitSlot (n.getLsbD i), e := 0 }

theorem startWriteByte_eq (n : Byte) (g : Engine) : startWriteByte n g = writingBit n 0 g := by
  simp [startWriteByte, startSlot, writingBit]

/-- When the slot of bit `i < 7` completes, bit `i + 1` starts (R80). -/
theorem afterWriteByte_writingBit (f : Engine → Engine) (n : Byte) {i : Nat} (hi : i < 7) (g : Engine) (k : Nat) :
    afterWriteByte f { writingBit n i g with e := k } = writingBit n (i + 1) g := by
  obtain ⟨h, _⟩ | ⟨_, e⟩ := afterWriteByte_cases f { writingBit n i g with e := k }
  · have : i = 7 := h
    omega
  · rw [e]
    simp only [startSlot, shiftOut, writingBit, Engine.mk.injEq, true_and, and_true]
    refine ⟨?_, ?_⟩
    · simp
    · rw [BitVec.shiftRight_add]

/-- The start of each bit of a byte that is being written: slot `i` begins 70 i ticks after the byte and sends bit `i`
(R81). `f` is what follows the byte. -/
theorem tickRun_writeByte_bit {f : Engine → Engine} {n : Byte} {g : Engine} (d : Nat → Bool)
    (hd : ∀ x : Engine, x.op = g.op → x.step = g.step → slotDone x = .ok (afterWriteByte f x)) :
    ∀ i < 8, tickRun d (70 * i) (startWriteByte n g) = .ok (writingBit n i g)
  | 0, _ => by rw [startWriteByte_eq]; rfl
  | i + 1, hi => by
    have ih := tickRun_writeByte_bit (n := n) d hd i (by omega)
    have hs := tickRun_slot (g := writingBit n i g) (bitSlot_ne_none _) rfl (fun j => d (70 * i + j))
    rw [inSlot_bitSlot _ _ rfl] at hs
    replace hs := hs.trans (hd _ rfl rfl)
    rw [afterWriteByte_writingBit f n (by omega)] at hs
    rw [Nat.mul_add, Nat.mul_one, tickRun_then ih]
    simpa [writingBit] using hs

/-- Inside the byte: 70 i + j ticks after its start, bit `i` is in its slot's tick `j`. -/
theorem tickRun_writeByte_mid {f : Engine → Engine} {n : Byte} {g : Engine} (d : Nat → Bool)
    (hd : ∀ x : Engine, x.op = g.op → x.step = g.step → slotDone x = .ok (afterWriteByte f x))
    {i j : Nat} (hi : i < 8) (hj : j < 70) :
    tickRun d (70 * i + j) (startWriteByte n g) = .ok { writingBit n i g with e := j } := by
  rw [tickRun_then (tickRun_writeByte_bit d hd i hi), tickRun_inSlot (bitSlot_ne_none _) rfl _ j (by simpa [writingBit] using hj),
    inSlot_bitSlot _ _ rfl]

/-- The whole byte (R81): 560 ticks, then what follows it, with `shreg = 0x00` and `bitn = 8`. -/
theorem tickRun_writeByte {f : Engine → Engine} {n : Byte} {g : Engine} (d : Nat → Bool)
    (hd : ∀ x : Engine, x.op = g.op → x.step = g.step → slotDone x = .ok (afterWriteByte f x)) :
    tickRun d 560 (startWriteByte n g) =
      .ok (f { g with shreg := 0x00#8, bitn := 8, slot := bitSlot (n.getLsbD 7), e := 70 }) := by
  have hs := tickRun_slot (g := writingBit n 7 g) (bitSlot_ne_none _) rfl (fun j => d (70 * 7 + j))
  rw [inSlot_bitSlot _ _ rfl] at hs
  replace hs := hs.trans (hd _ rfl rfl)
  rw [show 560 = 70 * 7 + 70 from rfl, tickRun_then (tickRun_writeByte_bit d hd 7 (by omega))]
  obtain ⟨_, e⟩ | ⟨h, _⟩ := afterWriteByte_cases f { writingBit n 7 g with e := len (writingBit n 7 g).slot }
  · rw [e] at hs
    have h8 : n >>> 7 >>> 1 = 0x00#8 := by rw [← BitVec.shiftRight_add]; exact BitVec.ushiftRight_eq_zero (by omega)
    simpa [writingBit, shiftOut, h8] using hs
  · exact absurd rfl h

/-! ### Reading -/

/-- The shift register after the first `i` read slots of a byte that sampled `s 0`, …, `s (i - 1)` (R83, R84). -/
def accumulated (s : Nat → Bool) : Nat → Byte
  | 0 => 0x00#8
  | i + 1 => (accumulated s i >>> 1) ||| ((BitVec.ofBool (s i)).setWidth 8 <<< 7)

/-- After eight slots the register is the byte of the samples, bit 0 first (R85). -/
theorem accumulated_eight (s : Nat → Bool) : accumulated s 8 = sampledByte s := by
  simp only [accumulated, sampledByte, List.range, List.range.loop, List.map]
  generalize s 0 = b0, s 1 = b1, s 2 = b2, s 3 = b3, s 4 = b4, s 5 = b5, s 6 = b6, s 7 = b7
  revert b0 b1 b2 b3 b4 b5 b6 b7
  decide

/-- The engine at the start of read slot `i` of a byte, `x` being the level of the last sample before it. -/
def readingBit (s : Nat → Bool) (x : Bool) (i : Nat) (g : Engine) : Engine :=
  { g with shreg := accumulated s i, bitn := i, slot := .rd, e := 0, samp := x }

theorem startReadByte_eq (s : Nat → Bool) (g : Engine) : startReadByte g = readingBit s g.samp 0 g := rfl

/-- The last sample before read slot `i`. -/
def sampleBefore (s : Nat → Bool) (x : Bool) : Nat → Bool
  | 0 => x
  | i + 1 => s i

/-- A read slot run to its end has sampled the line at elapsed 15 (R73). -/
theorem inSlot_rd (d : Nat → Bool) {g : Engine} (h : g.slot = .rd) (n : Nat) :
    inSlot d n g = { g with e := n, samp := if 15 < n then !d 15 else g.samp } := by
  simp [inSlot, h, sampleAt]

/-- The start of each slot of a byte that is being read; the samples are the line at elapsed 15 of each slot. `f` is what
follows the byte. -/
theorem tickRun_readByte_bit {f : Engine → Engine} {g : Engine} (d : Nat → Bool)
    (hd : ∀ x : Engine, x.op = g.op → x.step = g.step → slotDone x = .ok (afterReadByte f x)) :
    ∀ i < 8, tickRun d (70 * i) (startReadByte g) =
      .ok (readingBit (fun i => !d (70 * i + 15)) (sampleBefore (fun i => !d (70 * i + 15)) g.samp i) i g)
  | 0, _ => rfl
  | i + 1, hi => by
    have ih := tickRun_readByte_bit d hd i (by omega)
    have hs := tickRun_slot (g := readingBit (fun i => !d (70 * i + 15))
      (sampleBefore (fun i => !d (70 * i + 15)) g.samp i) i g) (by simp [readingBit]) rfl (fun j => d (70 * i + j))
    rw [inSlot_rd _ rfl] at hs
    replace hs := hs.trans (hd _ rfl rfl)
    rw [Nat.mul_add, Nat.mul_one, tickRun_then ih]
    refine hs.trans (congrArg Except.ok ?_)
    obtain ⟨h, _⟩ | ⟨_, e⟩ := afterReadByte_cases f { readingBit (fun i => !d (70 * i + 15))
        (sampleBefore (fun i => !d (70 * i + 15)) g.samp i) i g with e := 70, samp := !d (70 * i + 15) }
    · have : i = 7 := h
      omega
    · exact e

/-- Inside the byte: 70 i + j ticks after its start, slot `i` is in its tick `j`. -/
theorem tickRun_readByte_mid {f : Engine → Engine} {g : Engine} (d : Nat → Bool)
    (hd : ∀ x : Engine, x.op = g.op → x.step = g.step → slotDone x = .ok (afterReadByte f x))
    {i j : Nat} (hi : i < 8) (hj : j < 70) :
    ∃ sh x, tickRun d (70 * i + j) (startReadByte g) =
      .ok { g with shreg := sh, samp := x, bitn := i, slot := .rd, e := j } := by
  rw [tickRun_then (tickRun_readByte_bit d hd i hi), tickRun_inSlot (by simp [readingBit]) rfl _ j (by simpa [readingBit, len] using hj),
    inSlot_rd _ rfl]
  exact ⟨_, _, rfl⟩

/-- The whole byte (R85, R86): 560 ticks, then what follows it, with `shreg` the byte of the samples and `bitn = 8`. -/
theorem tickRun_readByte {f : Engine → Engine} {g : Engine} (d : Nat → Bool)
    (hd : ∀ x : Engine, x.op = g.op → x.step = g.step → slotDone x = .ok (afterReadByte f x)) :
    tickRun d 560 (startReadByte g) =
      .ok (f { g with
        shreg := sampledByte (fun i => !d (70 * i + 15)), bitn := 8, slot := .rd, e := 70, samp := !d 505 }) := by
  have hs := tickRun_slot (g := readingBit (fun i => !d (70 * i + 15))
    (sampleBefore (fun i => !d (70 * i + 15)) g.samp 7) 7 g) (by simp [readingBit]) rfl (fun j => d (70 * 7 + j))
  rw [inSlot_rd _ rfl] at hs
  replace hs := hs.trans (hd _ rfl rfl)
  rw [show 560 = 70 * 7 + 70 from rfl, tickRun_then (tickRun_readByte_bit d hd 7 (by omega))]
  refine hs.trans (congrArg Except.ok ?_)
  obtain ⟨_, e⟩ | ⟨h, _⟩ := afterReadByte_cases f { readingBit (fun i => !d (70 * i + 15))
      (sampleBefore (fun i => !d (70 * i + 15)) g.samp 7) 7 g with e := 70, samp := !d (70 * 7 + 15) }
  · refine e.trans ?_
    rw [← accumulated_eight]
    rfl
  · exact absurd rfl h

end Sys2Proof.Machine
end

