-- ==== Sys2Proof/Laws/PerInstr.lean ====
section
/-! SUPPORT. A statement about every instruction as syntax, proved constructor by constructor: the word a command assembles to is
legal (30_encoding.md R47). -/

namespace Sys2Proof.Laws.EncodesLegally

/-- The word the command assembles to passes both checks of a command word. -/
def Statement (i : Instr) : Prop := opIsCommand (opField (encode i)) = true ∧ unusedBitsClear (encode i) = true

theorem init : Statement .init := by unfold Statement; decide
theorem readTemp : Statement .readTemp := by unfold Statement; decide
theorem resetPresence : Statement .resetPresence := by unfold Statement; decide
theorem writeBit (b : Bool) : Statement (.writeBit b) := by cases b <;> (unfold Statement; decide)
theorem readBit : Statement .readBit := by unfold Statement; decide
theorem writeByte (n : Byte) : Statement (.writeByte n) := by
  have h4 : opField (encode (.writeByte n)) = 0x6#4 := by
    apply BitVec.eq_of_getLsbD_eq
    intro i hi
    interval_cases i <;> simp [opField, encode]
  refine ⟨by rw [h4]; decide, ?_⟩
  unfold unusedBitsClear
  rw [h4, beq_iff_eq]
  apply BitVec.eq_of_getLsbD_eq
  intro i hi
  simp only [encode, usedBits, argBits]
  interval_cases i <;> simp
theorem readByte : Statement .readByte := by unfold Statement; decide

end Sys2Proof.Laws.EncodesLegally
end

