-- ==== Sys2Proof/Laws/Decode.lean ====
section
/-! SUPPORT. What the checks of a command word say about its bits. -/

namespace Sys2Proof

/-- The OP field is the word's lowest four bits. -/
theorem getLsbD_opField (v : Word) {i : Nat} (h : i < 4) : (opField v).getLsbD i = v.getLsbD i := by
  simp [opField, h]

/-- In a word that passes the second check, a bit outside the used ones is 0 (R47). -/
theorem getLsbD_of_unusedBitsClear {v : Word} (h : unusedBitsClear v = true) {i : Nat}
    (hi : (usedBits (opField v)).getLsbD i = false) : v.getLsbD i = false := by
  rw [unusedBitsClear, beq_iff_eq] at h
  by_cases h32 : i < 32
  · have := congrArg (fun w => w.getLsbD i) h
    simp only [BitVec.getLsbD_and, BitVec.getLsbD_not, hi, h32, BitVec.getLsbD_zero] at this
    simpa using this
  · exact BitVec.getLsbD_of_ge _ _ (by omega)

/-- The two checks of a legal word (R47). -/
theorem legal_iff (v : Word) : legal v = true ↔ opIsCommand (opField v) = true ∧ unusedBitsClear v = true := by
  simp [legal]

/-- The decoder rejects exactly where a check fails, and names the check. -/
theorem decode_of_legal {v : Word} (h : legal v = true) : decode v = decodeFields v := by simp [decode, h]

theorem decode_of_reserved_op {v : Word} (h : opIsCommand (opField v) = false) : decode v = .error .reservedOp := by
  simp [decode, legal, h]

theorem decode_of_reserved_bits {v : Word} (h : opIsCommand (opField v) = true) (hu : unusedBitsClear v = false) :
    decode v = .error .reservedBits := by simp [decode, legal, h, hu]

/-- An OP that names a command is one of the seven (R45). -/
theorem opIsCommand_iff (op : BitVec 4) :
    opIsCommand op = true ↔ op ∈ [0x1#4, 0x2#4, 0x3#4, 0x4#4, 0x5#4, 0x6#4, 0x7#4] := by
  revert op; decide

end Sys2Proof
end

