-- ==== Sys2Proof/Laws/Step.lean ====
section
/-! SUPPORT. What a command and a step can do, said once. -/

namespace Sys2Proof.Machine

/-- What a legal command does to the engine at its CMD write. -/
def execEngine (i : Instr) (lineReady : Bool) (g : Engine) : Engine :=
  match i with
  | .init => if g.busy then markOverrun g else takeLineReady lineReady g
  | .readTemp =>
    beginCommand (fun g => startSlot .rst { g with op := .readt, step := .reset1, presence2 := false }) g
  | .resetPresence => beginCommand (fun g => startSlot .rst { g with op := .rstp }) g
  | .writeBit b => beginCommand (fun g => startSlot (bitSlot b) { g with op := .wbit }) g
  | .readBit => beginCommand (fun g => startSlot .rd { g with op := .rbit }) g
  | .writeByte n => beginCommand (fun g => startWriteByte n { g with op := .wbyte }) g
  | .readByte => beginCommand (fun g => startReadByte { g with op := .rbyte }) g

/-- A command changes the engine and nothing of the outside world. -/
theorem exec_engine (i : Instr) (s : State) :
    exec i s = .next { s with engine := execEngine i s.lineReady s.engine } := by
  cases i <;> rfl

/-- What a word written to CMD does to the engine (R89). -/
def acceptEngine (v : Word) (lineReady : Bool) (g : Engine) : Engine :=
  match decode v with
  | .ok i => execEngine i lineReady g
  | .error _ => rejectIllegal g

/-- A CMD write changes the engine and nothing of the outside world. -/
theorem acceptCommand_engine (v : Word) (s : State) :
    acceptCommand v s = .next { s with engine := acceptEngine v s.lineReady s.engine } := by
  unfold acceptCommand acceptEngine
  cases decode v with
  | ok i => exact exec_engine i s
  | error _ => rfl

/-- A tick of the machine is a tick of the engine. -/
theorem tick_next_iff {b : Bool} {s t : State} :
    tick b s = .next t ↔ ∃ g, engineTick b s.engine = .ok g ∧ t = { s with engine := g, now := s.now + 1 } := by
  unfold tick
  cases engineTick b s.engine <;> simp [eq_comm]

/-- A write to the window that is answered: the engine changes as the register says (R34). -/
theorem hostWrite_next {size : AccessSize} {off : Nat} {v : Word} {s t : State}
    (h : hostWrite size off v s = .next t) :
    ∃ r, hostAccess size off = .ok r ∧
      ((r = .cmd ∧ t = { s with engine := acceptEngine v s.lineReady s.engine }) ∨
       (r = .status ∧ t = { s with engine := writeStatus v s.engine }) ∨
       (r ≠ .cmd ∧ r ≠ .status ∧ t = s)) := by
  unfold hostWrite at h
  cases ha : hostAccess size off with
  | error e => simp [ha] at h
  | ok r =>
    refine ⟨r, rfl, ?_⟩
    cases r <;> simp [ha, writeReg, acceptCommand_engine] at h <;> simp [h]

/-- A read of the window that is answered: only the host's word changes (R33). -/
theorem hostRead_next {size : AccessSize} {off : Nat} {s t : State} (h : hostRead size off s = .next t) :
    ∃ r, hostAccess size off = .ok r ∧ t = { s with hostRdata := readReg r s } := by
  unfold hostRead at h
  cases ha : hostAccess size off with
  | error e => simp [ha] at h
  | ok r => simp [ha] at h; exact ⟨r, rfl, h.symm⟩

/-- Everything a step can do. -/
theorem step_cases {s t : State} (h : step s = .next t) :
    (s.inputs = [] ∧ ∃ g, engineTick (Config.slaveLow s.resets s.now) s.engine = .ok g ∧
      t = { s with engine := g, now := s.now + 1 }) ∨
    ∃ rest, (∃ b g, s.inputs = .tick b :: rest ∧ engineTick b s.engine = .ok g ∧
        t = { s with engine := g, now := s.now + 1, inputs := rest }) ∨
      (∃ size off v, s.inputs = .hostWrite size off v :: rest ∧
        hostWrite size off v { s with inputs := rest } = .next t) ∨
      (∃ size off r, s.inputs = .hostRead size off :: rest ∧ hostAccess size off = .ok r ∧
        t = { s with inputs := rest, hostRdata := readReg r s }) ∨
      (∃ level, s.inputs = .lineReady level :: rest ∧ t = { s with inputs := rest, lineReady := level }) ∨
      (s.inputs = .rst :: rest ∧ t = assertRst { s with inputs := rest }) := by
  unfold step at h
  cases hi : s.inputs with
  | nil =>
    simp only [hi] at h
    exact .inl ⟨rfl, by simpa [hi] using tick_next_iff.mp h⟩
  | cons i rest =>
    simp only [hi] at h
    refine .inr ⟨rest, ?_⟩
    cases i with
    | tick b =>
      obtain ⟨g, hg, rfl⟩ := tick_next_iff.mp h
      exact .inl ⟨b, g, rfl, hg, rfl⟩
    | hostWrite size off v => exact .inr (.inl ⟨size, off, v, rfl, h⟩)
    | hostRead size off =>
      obtain ⟨r, hr, rfl⟩ := hostRead_next h
      exact .inr (.inr (.inl ⟨size, off, r, rfl, hr, by cases r <;> rfl⟩))
    | lineReady level =>
      simp only [applyInput, Host.Outcome.next.injEq] at h
      exact .inr (.inr (.inr (.inl ⟨level, rfl, h.symm⟩)))
    | rst =>
      simp only [applyInput, Host.Outcome.next.injEq] at h
      exact .inr (.inr (.inr (.inr ⟨rfl, h.symm⟩)))

/-- A run in two parts. -/
theorem run_add (m n : Nat) (s : State) :
    run (m + n) s =
      match run m s with
      | .next t => run n t
      | .fault f => .fault f
      | .refused r => .refused r := by
  induction m generalizing s with
  | zero => simp [run]
  | succ m ih =>
    rw [Nat.add_right_comm, run, run]
    cases step s with
    | next t => exact ih t
    | fault f => rfl
    | refused r => rfl

end Sys2Proof.Machine
end

