-- ==== Sys2Proof/Tests/Slice0.lean ====
section
/-! SUPPORT. The model's own tests, with expected values from 95_test_vectors.md, and for every statement with hypotheses a
concrete state and operands that meet them. -/

namespace Sys2Proof.Tests

open Sys2Proof.Machine

/-! ### Helpers -/

/-- After reset and `OW.INIT` with `line_ready` high: STATUS reads 0x00001412 (95_test_vectors.md section 0). -/
def inited : Engine := { Engine.reset with initialized := true, done := true, result := .ok }

/-- An engine that runs a command, at this place of a slot. -/
def busyAt (op : Op) (slot : SlotKind) (e : Nat) : Engine := { inited.running op slot with e := e }

/-- READ_TEMP at the last tick of its first reset slot, with this sample. -/
def endOfReset1 (samp : Bool) : Engine := { busyAt .readt .rst 959 with samp := samp }

/-- READ_TEMP at the last tick of its last read slot, 0x91 read as LSB and the last 1 of MSB 0x01 about to be in place. -/
def endOfReading : Engine :=
  { busyAt .readt .rd 69 with
    step := .rsMsb, presence := true, presence2 := true, lsb := 0x91#8, shreg := 0x02#8, bitn := 7 }

/-- The machine around an engine. -/
def around (g : Engine) (inputs : List Input := []) : State := { State.reset with engine := g, inputs := inputs }

/-- Does the outcome give a next state with this property? -/
def onNext (o : Host.Outcome State Fault Refusal) (p : State → Bool) : Bool :=
  match o with
  | .next t => p t
  | .fault _ => false
  | .refused _ => false

/-- Is the outcome this refusal? -/
def isRefusal (r : Refusal) (o : Host.Outcome State Fault Refusal) : Bool :=
  match o with
  | .next _ => false
  | .fault _ => false
  | .refused q => q = r

/-- Does the outcome give a next state whose STATUS reads this word? -/
def statusIs (w : Word) (o : Host.Outcome State Fault Refusal) : Bool :=
  onNext o (fun t => statusWord t.lineReady t.engine = w)

/-! ### Ill-formed words are refused, check by check (30_encoding.md R47, R48; section 4, AC-6 to AC-13) -/

theorem test_wf_op_zero : opIsCommand (opField 0x00000000#32) = false ∧ decode 0x00000000#32 = .error .reservedOp := by decide
theorem test_wf_op_eight : opIsCommand (opField 0x00000008#32) = false ∧ decode 0x00000008#32 = .error .reservedOp := by decide
theorem test_wf_op_fifteen : opIsCommand (opField 0x0000000F#32) = false ∧ decode 0x0000000F#32 = .error .reservedOp := by decide
theorem test_wf_op_zero_with_arg : decode 0x00000010#32 = .error .reservedOp := by decide
theorem test_wf_init_bit_31 : unusedBitsClear 0x80000001#32 = false ∧ decode 0x80000001#32 = .error .reservedBits := by decide
theorem test_wf_read_temp_bit_4 : unusedBitsClear 0x00000012#32 = false ∧ decode 0x00000012#32 = .error .reservedBits := by decide
theorem test_wf_reset_arg : unusedBitsClear 0x00000103#32 = false ∧ decode 0x00000103#32 = .error .reservedBits := by decide
theorem test_wf_write_bit_arg_bit_1 : unusedBitsClear 0x00000204#32 = false ∧ decode 0x00000204#32 = .error .reservedBits := by decide
theorem test_wf_read_bit_arg : unusedBitsClear 0x00000205#32 = false ∧ decode 0x00000205#32 = .error .reservedBits := by decide
theorem test_wf_write_byte_bit_16 : unusedBitsClear 0x00010006#32 = false ∧ decode 0x00010006#32 = .error .reservedBits := by decide
theorem test_wf_write_byte_bit_7 : unusedBitsClear 0x00000086#32 = false ∧ decode 0x00000086#32 = .error .reservedBits := by decide
theorem test_wf_read_byte_arg : unusedBitsClear 0x00000107#32 = false ∧ decode 0x00000107#32 = .error .reservedBits := by decide
theorem test_wf_short : decodeBytes [0x01#8, 0x00#8, 0x00#8] = .error .shortWord := by decide

/-! ### Every constructor's word, written field by field: v[31:16], ARG = v[15:8], v[7:4], OP = v[3:0] (R44 to R46) -/

theorem test_decode_init : decode (0x0000#16 ++ 0b00000000#8 ++ 0b0000#4 ++ 0b0001#4) = .ok .init := by decide
theorem test_decode_read_temp : decode (0x0000#16 ++ 0b00000000#8 ++ 0b0000#4 ++ 0b0010#4) = .ok .readTemp := by decide
theorem test_decode_reset : decode (0x0000#16 ++ 0b00000000#8 ++ 0b0000#4 ++ 0b0011#4) = .ok .resetPresence := by decide
theorem test_decode_write_bit_0 : decode (0x0000#16 ++ 0b00000000#8 ++ 0b0000#4 ++ 0b0100#4) = .ok (.writeBit false) := by decide
theorem test_decode_write_bit_1 : decode (0x0000#16 ++ 0b00000001#8 ++ 0b0000#4 ++ 0b0100#4) = .ok (.writeBit true) := by decide
theorem test_decode_read_bit : decode (0x0000#16 ++ 0b00000000#8 ++ 0b0000#4 ++ 0b0101#4) = .ok .readBit := by decide
theorem test_decode_write_byte : decode (0x0000#16 ++ 0b10100101#8 ++ 0b0000#4 ++ 0b0110#4) = .ok (.writeByte 0xA5#8) := by decide
theorem test_decode_read_byte : decode (0x0000#16 ++ 0b00000000#8 ++ 0b0000#4 ++ 0b0111#4) = .ok .readByte := by decide

/-- `OW.WBYTE 0xA5` in the host's memory, lowest address first, with the next word behind it (20_memory.md R38). -/
theorem test_decode_bytes :
    decodeBytes [0x06#8, 0xA5#8, 0x00#8, 0x00#8, 0x07#8] = .ok (.writeByte 0xA5#8, [0x07#8]) := by decide
theorem test_decode_table_word : decodeTableWord 32 0x0000CC06 = some (.writeByte 0xCC#8) ∧
    decodeTableWord 16 0x00000104 = some (.writeBit true) ∧ decodeTableWord 32 0x00000205 = none := by decide

/-! ### One step of each command (95_test_vectors.md sections 2 to 5) -/

/-- AC-4. -/
theorem test_init_ready : statusIs 0x00001412#32 (step (State.reset.withFetchWord 32 0x00000001)) = true := by decide
/-- AC-5. -/
theorem test_init_not_ready : statusIs 0x00000032#32 (exec .init { around inited with lineReady := false }) = true := by decide
/-- AC-21: accepted, PRESENCE2 cleared and PRESENCE kept. -/
theorem test_read_temp_accepted :
    statusIs 0x00001501#32 (exec .readTemp (around { inited with presence := true, presence2 := true })) = true := by decide
/-- P1's end: 0x91, 0x01 is 25.0625 degrees. -/
theorem test_read_temp_ends :
    onNext (step (around endOfReading [.tick false])) (fun t => t.engine.tempRaw = 0x00000191#32 ∧
      t.engine.tempF32 = 0x41C88000#32 ∧ statusWord true t.engine = 0x00001712#32 ∧ t.engine.shreg = 0x01#8) = true := by decide
/-- BT-1, mid-command: BUSY, RESULT NONE. -/
theorem test_reset_presence_accepted : statusIs 0x00001401#32 (exec .resetPresence (around inited)) = true := by decide
/-- BT-1's end. -/
theorem test_reset_presence_ends :
    statusIs 0x00001512#32 (step (around (busyAt .rstp .rst 959) [.tick false])) = true := by decide
/-- BT-8 and BT-9: bit 1 is a W1 slot, bit 0 a W0 slot. -/
theorem test_write_bit_slots :
    onNext (exec (.writeBit true) (around inited)) (fun t => t.engine.slot = .w1) = true ∧
    onNext (exec (.writeBit false) (around inited)) (fun t => t.engine.slot = .w0) = true := by decide
/-- BT-9's end. -/
theorem test_write_bit_ends : statusIs 0x00001412#32 (step (around (busyAt .wbit .w0 69) [.tick true])) = true := by decide
/-- BT-11: a device pulls low at elapsed 15. -/
theorem test_read_bit_samples_at_15 :
    onNext (step (around { busyAt .rbit .rd 15 with samp := true } [.tick true])) (fun t => t.engine.samp = false) = true := by
  decide
/-- BT-10's end. -/
theorem test_read_bit_ends :
    onNext (step (around { busyAt .rbit .rd 69 with samp := true } [.tick false]))
      (fun t => t.engine.rxdata = 0x00000001#32 ∧ statusWord true t.engine = 0x00001412#32) = true := by decide
/-- BY-6's first slot, W1, ends, and its second, W0, begins. -/
theorem test_write_byte_next_slot :
    onNext (step (around { busyAt .wbyte .w1 69 with shreg := 0xA5#8 } [.tick false]))
      (fun t => t.engine.slot = .w0 ∧ t.engine.e = 0 ∧ t.engine.bitn = 1 ∧ t.engine.shreg = 0x52#8) = true := by decide
/-- BY-8's end: the last bit was bit 7. -/
theorem test_write_byte_ends :
    onNext (step (around { busyAt .wbyte .w1 69 with shreg := 0x01#8, bitn := 7 } [.tick false]))
      (fun t => t.engine.shreg = 0x00#8 ∧ t.engine.bitn = 8 ∧ statusWord true t.engine = 0x00001412#32) = true := by decide
/-- BY-11: the last bit read is bit 7. -/
theorem test_read_byte_ends :
    onNext (step (around { busyAt .rbyte .rd 69 with samp := true, bitn := 7 } [.tick false]))
      (fun t => t.engine.rxdata = 0x00000080#32 ∧ statusWord true t.engine = 0x00001412#32) = true := by decide
/-- AC-16: overrun. -/
theorem test_read_bit_overrun : statusIs 0x00001C01#32
    (step ((around (busyAt .rstp .rst 0)).withFetchWord 32 0x00000005)) = true := by decide
/-- AC-2: not initialized. -/
theorem test_read_temp_not_initialized : statusIs 0x00001042#32 (exec .readTemp State.reset) = true := by decide
/-- AC-8: illegal. -/
theorem test_illegal_word : statusIs 0x00001052#32 (step (State.reset.withFetchWord 32 0x00000010)) = true := by decide
/-- AC-18: `OW.CLR`. -/
theorem test_clear :
    statusIs 0x00001410#32 (step (around { inited with overrun := true } [owClear])) = true := by decide
/-- P2's end. -/
theorem test_no_presence : onNext (step (around (endOfReset1 true) [.tick false]))
    (fun t => statusWord true t.engine = 0x00001422#32 ∧ t.engine.tempF32 = 0xC47A0000#32 ∧ t.engine.step = .reset1) = true := by
  decide

/-- `OW.WAIT` (30_encoding.md R51) polls once while BUSY = 1, once after. -/
theorem test_wait : onNext (owWait [true, true] (around (busyAt .wbit .w1 69)))
    (fun t => t.hostRdata = 0x00001412#32 ∧ t.now = 1) = true := by decide

/-! ### Witnesses: states and operands that meet the hypotheses of each statement with hypotheses -/

/-- OP just outside 1 .. 7, and a legal OP with the first bit outside the ones it uses set. -/
theorem witness_ExactlyLegalWordsRun :
    (around inited).engine.busy = false ∧
    (∀ v ∈ [0x00000000#32, 0x00000008#32, 0x00000011#32, 0x00000204#32, 0x00010006#32],
      ¬ ((1 ≤ (v.extractLsb' 0 4).toNat ∧ (v.extractLsb' 0 4).toNat ≤ 7) ∧
        v &&& ~~~(if (v.extractLsb' 0 4).toNat = 4 then 0x0000010F#32
          else if (v.extractLsb' 0 4).toNat = 6 then 0x0000FF0F#32 else 0x0000000F#32) = 0#32)) := by
  refine ⟨by decide, fun v hv => ?_⟩
  fin_cases hv <;> decide

theorem witness_BytesAreLittleEndian :
    3 < 4 ∧ decode 0x0000FF06#32 = .ok (.writeByte 0xFF#8) ∧ ([0x01#8, 0x02#8, 0x03#8] : List Byte).length < 4 := by decide

theorem witness_AcceptCommandChecksInOrder :
    (busyAt .rstp .rst 0).busy = true ∧
    (inited.busy = false ∧ legal 0x00000010#32 = false) ∧
    (Engine.reset.busy = false ∧ decode 0x00000001#32 = .ok .init) ∧
    (Engine.reset.busy = false ∧ decode 0x00000002#32 = .ok .readTemp ∧ Instr.readTemp ≠ .init ∧
      Engine.reset.initialized = false) ∧
    (inited.busy = false ∧ inited.initialized = true ∧ decode 0x00000104#32 = .ok (.writeBit true) ∧
      Instr.writeBit true ≠ .init) := by decide

theorem witness_InitTakesLineReady : Engine.reset.busy = false ∧ (busyAt .rstp .rst 0).busy = true := by decide

theorem witness_UninitializedCommandIsNotStarted :
    Instr.writeByte 0x44#8 ≠ .init ∧ State.reset.engine.busy = false ∧ State.reset.engine.initialized = false := by decide

theorem witness_OverrunIsIgnoredAndSticky :
    (busyAt .rbit .rd 3).busy = true ∧
    (0x00000802#32).getLsbD 11 = true ∧
    ∃ s t : State, s.engine.overrun = true ∧ step s = .next t ∧ s.inputs.head? = some (.tick true) :=
  ⟨by decide, by decide, around { busyAt .rbit .rd 3 with overrun := true } [.tick true],
    _, by decide, rfl, by decide⟩

/-- Each of the four cases of the frame: another command than READ_TEMP, than INIT, than the byte commands; BUSY either way. -/
theorem witness_CommandsLeaveTheRestUnchanged :
    (∃ s t : State, exec .readBit s = .next t ∧ s.engine.busy = false ∧ Instr.readBit ≠ .readTemp ∧ Instr.readBit ≠ .init ∧
      (∀ n, Instr.readBit ≠ .writeByte n) ∧ Instr.readBit ≠ .readByte) ∧
    ∃ s t : State, exec .init s = .next t ∧ s.engine.busy = true :=
  ⟨⟨around inited, _, rfl, by decide, by decide, by decide, nofun, by decide⟩,
    around (busyAt .rstp .rst 0), _, rfl, by decide⟩

theorem witness_DriveFollowsThePattern :
    SlotKind.w0 ≠ .none ∧ SlotKind.w0 ≠ .cwait ∧ sampleAt .rst = some 550 ∧ sampleAt .rd = some 15 := by decide

theorem witness_SampleIsTheWiredAnd :
    sampleAt (busyAt .rstp .rst 550).slot = some (busyAt .rstp .rst 550).e ∧
    sampleAt (busyAt .rbit .rd 15).slot = some (busyAt .rbit .rd 15).e := by decide

theorem witness_IdleTickChangesNothing : inited.slot = .none := by decide

/-- Two streams of draws that differ everywhere but at the one sample instant of an RD slot. -/
theorem witness_DrawsMatterOnlyAtSamples :
    ∃ (d d' : Nat → Bool) (n : Nat) (g : Engine), d ≠ d' ∧ n = 70 ∧ g = busyAt .rbit .rd 0 ∧
      ∀ j < n, ∀ h, tickRun d j g = .ok h → sampleAt h.slot = some h.e → d j = d' j := by
  refine ⟨fun _ => true, fun j => decide (j = 15), 70, busyAt .rbit .rd 0, ?_, rfl, rfl, ?_⟩
  · intro h; exact absurd (congrFun h 0) (by decide)
  · intro j hj h hh hs
    rw [tickRun_inSlot (g := busyAt .rbit .rd 0) (by decide) (by decide) _ j hj] at hh
    cases hh
    have h15 : 15 = j := Option.some.inj hs
    exact (decide_eq_true h15.symm).symm

theorem witness_SlotsFollowWithoutGap :
    ∃ (b : Bool) (g h : Engine), g.Inv ∧ g.slot ≠ .none ∧ g.e + 1 = len g.slot ∧ engineTick b g = .ok h ∧ h.busy = true :=
  ⟨false, endOfReset1 false, _, by decide, by decide, by decide, rfl, by decide⟩

/-- The one premise of the statements about single commands: READY, here after `OW.INIT`. -/
theorem witness_ResetPresenceRunsOneResetSlot : (around inited).engine.ready ∧ 959 < 960 := by decide
theorem witness_WriteBitRunsOneWriteSlot : (around inited).engine.ready ∧ 69 < 70 := by decide
theorem witness_ReadBitReturnsTheLineAtFifteen : (around inited).engine.ready ∧ 69 < 70 := by decide
theorem witness_WriteByteSendsBitsInOrder : (around inited).engine.ready ∧ 7 < 8 ∧ 69 < 70 := by decide
theorem witness_ReadByteReturnsSampledBits : (around inited).engine.ready ∧ 7 < 8 ∧ 69 < 70 := by decide
theorem witness_ReadTempStartsWithAReset : (around inited).engine.ready := by decide

/-- BY-14 with 0xA5: a device pulls low at the samples of bits 1, 3, 4 and 6 (P3). -/
theorem witness_LoopbackReturnsTheByteWritten :
    (around inited).engine.ready ∧
    ∀ i < 8, (fun t => decide (t ∈ [85, 225, 295, 435])) (70 * i + 15) = !(0xA5#8).getLsbD i := by decide

theorem witness_ReadTempWithoutPresenceStopsAtOnce : (fun _ => false : Nat → Bool) 550 = false ∧ 959 < 960 := by decide
theorem witness_ReadTempDeliversTheReading : (fun t => decide (t = 550) : Nat → Bool) 550 = true := by decide
theorem witness_ReadTempFollowsTheTimeline :
    (fun t => decide (t = 550) : Nat → Bool) 550 = true ∧ 755279 < 755280 := by decide

/-- A step in the middle of a slot, one to the next step, and the exits. -/
theorem witness_SequenceIsLinearWithOneExit :
    (∃ (b : Bool) (g h : Engine), g.Inv ∧ g.op = .readt ∧ engineTick b g = .ok h ∧ h.step.index = g.step.index + 1) ∧
    (∃ (b : Bool) (g h : Engine), g.Inv ∧ g.op = .readt ∧ engineTick b g = .ok h ∧ h.result = .noPresence) ∧
    ∃ (b : Bool) (g h : Engine), g.Inv ∧ g.op = .readt ∧ engineTick b g = .ok h ∧ h.result = .ok :=
  ⟨⟨true, endOfReset1 false, _, by decide, by decide, rfl, by decide⟩,
    ⟨true, endOfReset1 true, _, by decide, by decide, rfl, by decide⟩,
    true, endOfReading, _, by decide, by decide, rfl, by decide⟩

theorem witness_CommandsTakeTheirTicks :
    (∃ s t : State, s.Inv ∧ s.engine.ready ∧ exec .readTemp s = .next t ∧ Instr.readTemp ≠ .init) ∧
    ∃ s t : State, s.Inv ∧ s.engine.ready ∧ exec .init s = .next t :=
  ⟨⟨around inited, _, by decide, by decide, rfl, by decide⟩, around inited, _, by decide, by decide, rfl⟩

theorem witness_StartedCommandAlwaysCompletes : (busyAt .rbit .rd 15).Inv ∧ (busyAt .rbit .rd 15).busy = true := by decide

/-- One tick for each clause: inside a slot, each presence flag changed, a command ended, an idle engine. -/
theorem witness_ResultsAppearAtCompletion :
    (∃ (b : Bool) (g h : Engine), engineTick b g = .ok h ∧ h.busy = true ∧ h.presence ≠ g.presence) ∧
    (∃ (b : Bool) (g h : Engine), engineTick b g = .ok h ∧ h.busy = true ∧ h.presence2 ≠ g.presence2) ∧
    (∃ (b : Bool) (g h : Engine), engineTick b g = .ok h ∧ g.busy = true ∧ h.busy = false) ∧
    ∃ (b : Bool) (g h : Engine), engineTick b g = .ok h ∧ g.slot = .none :=
  ⟨⟨true, endOfReset1 false, _, rfl, by decide, by decide⟩,
    ⟨true, { endOfReset1 false with step := .reset2, presence := true }, _, rfl, by decide, by decide⟩,
    ⟨true, busyAt .wbit .w1 69, _, rfl, by decide, by decide⟩,
    true, inited, _, rfl, by decide⟩

/-- One step for each writer: READ_BIT, READ_TEMP with OK, READ_TEMP with NO_PRESENCE. -/
theorem witness_DataRegistersHaveTheirWriters :
    (∃ s t : State, s.Inv ∧ step s = .next t ∧ s.inputs.head? ≠ some .rst ∧ t.engine.rxdata ≠ s.engine.rxdata) ∧
    (∃ s t : State, s.Inv ∧ step s = .next t ∧ s.inputs.head? ≠ some .rst ∧
      t.engine.tempRaw ≠ s.engine.tempRaw ∧ t.engine.tempF32 ≠ s.engine.tempF32) ∧
    ∃ s t : State, s.Inv ∧ step s = .next t ∧ s.inputs.head? ≠ some .rst ∧ t.engine.tempF32 ≠ s.engine.tempF32 :=
  ⟨⟨around { busyAt .rbit .rd 69 with samp := true } [.tick true], _, by decide, rfl, by decide, by decide⟩,
    ⟨around endOfReading [.tick true], _, by decide, rfl, by decide, by decide, by decide⟩,
    around (endOfReset1 true) [.tick true], _, by decide, rfl, by decide, by decide⟩

/-- Each clause at the edge of its range: the window's last word, a halfword there, the byte after it, the word after it. -/
theorem witness_OnlyAlignedWordAccessesAreAdmitted :
    (28 % 4 = 0 ∧ 28 < 32) ∧ AccessSize.halfword ≠ .word ∧ 29 % 4 ≠ 0 ∧ (32 % 4 = 0 ∧ 32 ≤ 32) := by decide

theorem test_access_at_the_edges :
    onNext (hostRead .word 28 State.reset) (fun _ => true) = true ∧
    isRefusal .narrowAccess (hostRead .halfword 28 State.reset) = true ∧
    isRefusal .misalignedAccess (hostWrite .word 29 0x00000000#32 State.reset) = true ∧
    isRefusal .outsideWindow (hostRead .word 32 State.reset) = true := by decide

theorem witness_AccessesHaveTheirSideEffects :
    (∃ s t : State, hostRead .word 0x04 s = .next t) ∧
    (∃ s t : State, hostWrite .word 0x04 0x00000802#32 s = .next t) ∧
    (∃ s t : State, hostWrite .word 0x08 0xFFFFFFFF#32 s = .next t ∧ 0x08 ≠ 0x00 ∧ 0x08 ≠ 0x04) ∧
    ∃ s t : State, hostWrite .word 0x00 0x00000003#32 s = .next t ∧ t.engine.busy = true :=
  ⟨⟨State.reset, _, rfl⟩, ⟨around inited, _, rfl⟩, ⟨State.reset, _, rfl, by decide⟩, around inited, _, rfl, by decide⟩

/-- DONE rising at a CMD write and in a tick; falling by a write of STATUS and by the next command. -/
theorem witness_DoneIrqFollowsCompletion :
    (∃ s t : State, step s = .next t ∧ doneIrq s.engine = false ∧ doneIrq t.engine = true ∧
      s.inputs.head? = some (owCommand .init)) ∧
    (∃ s t : State, step s = .next t ∧ doneIrq s.engine = false ∧ doneIrq t.engine = true ∧
      s.inputs.head? = some (.tick true)) ∧
    (∃ s t : State, step s = .next t ∧ doneIrq s.engine = true ∧ doneIrq t.engine = false ∧
      s.inputs.head? = some owClear) ∧
    ∃ s t : State, step s = .next t ∧ doneIrq s.engine = true ∧ doneIrq t.engine = false ∧
      s.inputs.head? = some (owCommand .readByte) :=
  ⟨⟨around Engine.reset [owCommand .init], _, rfl, by decide, by decide, rfl⟩,
    ⟨around (busyAt .wbit .w1 69) [.tick true], _, rfl, by decide, by decide, rfl⟩,
    ⟨around inited [owClear], _, rfl, by decide, by decide, rfl⟩,
    around inited [owCommand .readByte], _, rfl, by decide, by decide, rfl⟩

theorem witness_RstAbortsAndResets :
    (around (busyAt .readt .rst 300) [.rst, .tick true]).inputs = .rst :: [.tick true] := by decide

theorem witness_OnlyInitChangesInitialized :
    (∃ s t : State, step s = .next t ∧ t.engine.initialized ≠ s.engine.initialized ∧
      s.inputs.head? = some (owCommand .init)) ∧
    ∃ s t : State, step s = .next t ∧ t.engine.initialized ≠ s.engine.initialized ∧ s.inputs.head? = some .rst :=
  ⟨⟨around Engine.reset [owCommand .init], _, rfl, by decide, rfl⟩,
    around inited [.rst], _, rfl, by decide, rfl⟩

theorem witness_StepRunsTheDecodedCommand :
    (around inited [.hostWrite .word 0x00 0x00000007#32]).inputs = .hostWrite .word 0x00 0x00000007#32 :: [] ∧
    decode 0x00000007#32 = .ok .readByte ∧ decodeTableWord 32 0x00000104 = some (.writeBit true) := by decide

/-- Every shape of the next input: a tick, a host access, `rst`, and none. -/
theorem witness_StepTakesInputsInOrder :
    (∃ s t : State, step s = .next t ∧ s.inputs = [.tick true, .rst]) ∧
    (∃ s t : State, step s = .next t ∧ s.inputs = [owLoad 0x04]) ∧
    (∃ s t : State, step s = .next t ∧ s.inputs = [.rst]) ∧ State.reset.inputs = [] :=
  ⟨⟨around inited [.tick true, .rst], _, rfl, rfl⟩, ⟨around inited [owLoad 0x04], _, rfl, rfl⟩,
    ⟨around inited [.rst], _, rfl, rfl⟩, rfl⟩

theorem witness_TicksThroughStepsAreTheEngines :
    ∃ g : Engine, tickRun (fun _ => true) 2 (around (busyAt .rbit .rd 14)).engine = .ok g ∧ g.e = 16 := ⟨_, rfl, by decide⟩

/-- A step that ends a READ_TEMP. -/
theorem witness_EveryStepKeepsInv : ∃ s t : State, s.Inv ∧ step s = .next t ∧ t.engine.tempRaw = 0x00000191#32 :=
  ⟨around endOfReading [.tick false], _, by decide, rfl, by decide⟩

theorem witness_NoStepFaults :
    ∃ s : State, s.Inv ∧ step s = .refused .narrowAccess :=
  ⟨around inited [.hostRead .byte 0x04], by decide, rfl⟩

/-- A poll, a second command, a pin change and a write of STATUS between two ticks of a running READ_BIT. -/
theorem witness_HostCannotDisturbARunningCommand :
    ∃ (s : State) (l : List Input) (d : Nat → Bool) (n : Nat), n = 2 ∧ s.Inv ∧ (∀ i ∈ l, i.quiet = true) ∧
      l.filterMap Input.draw? = (List.range n).map d ∧ (∀ j ≤ n, ∃ h, tickRun d j s.engine = .ok h ∧ h.busy = true) := by
  refine ⟨around (busyAt .rbit .rd 14),
    [.tick true, owLoad 0x04, owCommand .readTemp, .lineReady false, owClear, .tick true], fun _ => true, 2,
    rfl, by decide, by decide, by decide, ?_⟩
  intro j hj
  interval_cases j <;> exact ⟨_, rfl, by decide⟩

end Sys2Proof.Tests
end

namespace Sys2Proof.Machine

/-- R14: with no slot in progress OWT releases the line, whatever `e` is. -/
theorem driveLow_idle {g : Engine} (h : g.slot = .none) : driveLow g = false := by
  rw [driveLow, h, drive]

@[simp] theorem State.reset_engine : State.reset.engine = Engine.reset := rfl

@[simp] theorem Engine.reset_slot : Engine.reset.slot = .none := rfl

/-- R31's last row: after reset the line is released, because no slot is in progress. -/
theorem driveLow_reset : driveLow Engine.reset = false := driveLow_idle Engine.reset_slot

/-- Settles O39: the elements' values are read off `Engine.reset`, row by row of R31's table; the released line follows from
`slot = NONE` (R14). -/
theorem resetLeavesTheStatedValues : Obligations.ResetLeavesTheStatedValues := by
  unfold Obligations.ResetLeavesTheStatedValues
  rw [State.reset_engine]
  exact ⟨rfl, rfl, rfl, rfl, rfl, rfl, rfl, rfl, rfl, rfl, rfl, rfl, Engine.reset_slot, rfl, rfl, rfl, rfl, rfl,
    driveLow_reset⟩

end Sys2Proof.Machine

namespace Sys2Proof.Machine

/-! ### The host window: which register an offset reaches, and what an admitted access does -/

/-- CMD stands at offset 0x00 and nowhere else (R24). -/
theorem hostReg?_cmd_iff {off : Nat} : hostReg? off = some .cmd ↔ off = 0x00 := by
  refine ⟨fun h => ?_, fun h => h ▸ rfl⟩
  unfold hostReg? at h
  split at h <;> simp_all

/-- STATUS stands at offset 0x04 and nowhere else (R24). -/
theorem hostReg?_status_iff {off : Nat} : hostReg? off = some .status ↔ off = 0x04 := by
  refine ⟨fun h => ?_, fun h => h ▸ rfl⟩
  unfold hostReg? at h
  split at h <;> simp_all

/-- A read that reaches a register hands its value to the host (R33). -/
theorem hostRead_of_access {size : AccessSize} {off : Nat} {r : HostReg} (h : hostAccess size off = .ok r)
    (s : State) : hostRead size off s = .next { s with hostRdata := readReg r s } := by
  rw [hostRead, h]

/-- A write that reaches a register is that register's write (R34). -/
theorem hostWrite_of_access {size : AccessSize} {off : Nat} {r : HostReg} (h : hostAccess size off = .ok r)
    (v : Word) (s : State) : hostWrite size off v s = writeReg r v s := by
  rw [hostWrite, h]

/-- No register's value depends on the word the host received before (log 5). -/
@[simp] theorem readReg_hostRdata (r : HostReg) (w : Word) (s : State) :
    readReg r { s with hostRdata := w } = readReg r s := by
  cases r <;> rfl

/-- A write of a whole word to offset 0x00 is a command (R34). -/
theorem hostWrite_cmd (v : Word) (s : State) : hostWrite .word 0x00 v s = acceptCommand v s :=
  hostWrite_of_access (r := .cmd) rfl v s

/-- A write of a whole word to offset 0x04 is a write of STATUS (R34). -/
theorem hostWrite_status (v : Word) (s : State) :
    hostWrite .word 0x04 v s = .next { s with engine := writeStatus v s.engine } :=
  hostWrite_of_access (r := .status) rfl v s

/-- An answered write to a register other than CMD and STATUS changes nothing (R34). -/
theorem hostWrite_elsewhere {size : AccessSize} {off : Nat} {v : Word} {s t : State} (hcmd : off ≠ 0x00)
    (hstatus : off ≠ 0x04) (h : hostWrite size off v s = .next t) : t = s := by
  obtain ⟨r, hr, hwrite⟩ := hostWrite_next h
  obtain ⟨-, -, hreg⟩ := hostAccess_ok_iff.mp hr
  obtain ⟨rfl, -⟩ | ⟨rfl, -⟩ | ⟨-, -, hts⟩ := hwrite
  · exact absurd (hostReg?_cmd_iff.mp hreg) hcmd
  · exact absurd (hostReg?_status_iff.mp hreg) hstatus
  · exact hts

/-! ### The word a read of STATUS returns, field by field (R25) -/

/-- STATUS from bit 0 upwards: BUSY, DONE, two reserved bits, RESULT, the two presence flags, INITIALIZED, OVERRUN and
LINE_READY; what follows is reserved. -/
def statusBits (l : Bool) (g : Engine) : List Bool :=
  [g.busy, g.done, false, false] ++ (List.range 4).map g.result.code.getLsbD ++
    [g.presence, g.presence2, g.initialized, g.overrun, l]

/-- The word a read of STATUS returns, bit by bit: beyond the list's end every bit is 0. -/
theorem getLsbD_statusWord (l : Bool) (g : Engine) (i : Nat) :
    (statusWord l g).getLsbD i = (statusBits l g).getD i false := by
  simp only [statusWord, BitVec.getLsbD_append]
  obtain hi | hi := Nat.lt_or_ge i 13
  · interval_cases i <;> simp [statusBits, List.range_succ]
  · rw [List.getD_eq_default _ _ (by simpa [statusBits] using hi)]
    simp (disch := omega) only [if_neg, BitVec.getLsbD_zero]

theorem extractLsb'_statusWord_result (l : Bool) (g : Engine) :
    (statusWord l g).extractLsb' 4 4 = g.result.code := by
  refine BitVec.eq_of_getLsbD_eq fun i hi => ?_
  rw [BitVec.getLsbD_extractLsb', getLsbD_statusWord]
  interval_cases i <;> simp [statusBits, List.range_succ]

theorem extractLsb'_statusWord_low (l : Bool) (g : Engine) : (statusWord l g).extractLsb' 2 2 = 0#2 := by
  refine BitVec.eq_of_getLsbD_eq fun i hi => ?_
  rw [BitVec.getLsbD_extractLsb', getLsbD_statusWord]
  interval_cases i <;> simp [statusBits]

theorem extractLsb'_statusWord_high (l : Bool) (g : Engine) : (statusWord l g).extractLsb' 13 19 = 0#19 := by
  refine BitVec.eq_of_getLsbD_eq fun i _ => ?_
  rw [BitVec.getLsbD_extractLsb', getLsbD_statusWord, List.getD_eq_default _ _ (by simp [statusBits])]
  simp

/-! ### A write of STATUS -/

/-- A write of STATUS clears the two flags whose bit is 1, as R34 words it. -/
theorem writeStatus_eq (v : Word) (g : Engine) :
    writeStatus v g = { g with
      done := if v.getLsbD 1 then false else g.done
      overrun := if v.getLsbD 11 then false else g.overrun } := by
  unfold writeStatus
  cases v.getLsbD 1 <;> cases v.getLsbD 11 <;> simp

/-- A flag cleared is cleared: the same write of STATUS twice is one write (R37). -/
@[simp] theorem writeStatus_writeStatus (v : Word) (g : Engine) :
    writeStatus v (writeStatus v g) = writeStatus v g := by
  simp [writeStatus]

/-! ### A command while another runs (R115) -/

theorem beginCommand_of_busy (start : Engine → Engine) {g : Engine} (h : g.busy = true) :
    beginCommand start g = markOverrun g := by
  rw [beginCommand, if_pos h]

theorem rejectIllegal_of_busy {g : Engine} (h : g.busy = true) : rejectIllegal g = markOverrun g := by
  rw [rejectIllegal, if_pos h]

/-- A legal command written while BUSY = 1 is an overrun and nothing more, INIT included. -/
theorem execEngine_of_busy (i : Instr) (l : Bool) {g : Engine} (h : g.busy = true) :
    execEngine i l g = markOverrun g := by
  cases i with
  | init => exact if_pos h
  | readTemp | resetPresence | writeBit | readBit | writeByte | readByte =>
    rw [execEngine, beginCommand_of_busy _ h]

/-- Any word written to CMD while BUSY = 1 is an overrun and nothing more, legal or not. -/
theorem acceptEngine_of_busy (v : Word) (l : Bool) {g : Engine} (h : g.busy = true) :
    acceptEngine v l g = markOverrun g := by
  unfold acceptEngine
  cases decode v with
  | ok i => exact execEngine_of_busy i l h
  | error _ => exact rejectIllegal_of_busy h

/-! ### The statements about the host port -/

/-- Settles O34: at each offset the access reaches that row's register, and STATUS is read field by field. -/
theorem hostReadReturnsTheRegister : Obligations.HostReadReturnsTheRegister := by
  unfold Obligations.HostReadReturnsTheRegister
  intro s
  refine ⟨fun off hoff => ?_, hostRead_of_access (r := .rxdata) rfl s, hostRead_of_access (r := .tempRaw) rfl s,
    hostRead_of_access (r := .tempF32) rfl s, statusWord s.lineReady s.engine,
    hostRead_of_access (r := .status) rfl s, getLsbD_statusWord .., getLsbD_statusWord ..,
    extractLsb'_statusWord_low .., ?_, getLsbD_statusWord .., getLsbD_statusWord .., getLsbD_statusWord ..,
    getLsbD_statusWord .., getLsbD_statusWord .., extractLsb'_statusWord_high ..⟩
  · simp only [List.mem_cons, List.not_mem_nil, or_false] at hoff
    obtain rfl | hoff := hoff
    · exact hostRead_of_access (r := .cmd) rfl s
    · obtain rfl | rfl | rfl := hoff <;> exact hostRead_of_access (r := .reserved) rfl s
  · rw [extractLsb'_statusWord_result]
    cases s.engine.result <;> rfl

/-- Settles O35: each offset reaches its row's register; CMD and STATUS have their write, the others none. -/
theorem hostWriteFollowsTheMap : Obligations.HostWriteFollowsTheMap := by
  unfold Obligations.HostWriteFollowsTheMap
  intro s v
  refine ⟨hostWrite_cmd v s, ?_, fun off hoff => ?_⟩
  · rw [hostWrite_status, writeStatus_eq]
  · simp only [List.mem_cons, List.not_mem_nil, or_false] at hoff
    obtain rfl | rfl | rfl | hoff := hoff
    · exact hostWrite_of_access (r := .rxdata) rfl v s
    · exact hostWrite_of_access (r := .tempRaw) rfl v s
    · exact hostWrite_of_access (r := .tempF32) rfl v s
    · obtain rfl | rfl | rfl := hoff <;> exact hostWrite_of_access (r := .reserved) rfl v s

/-- Settles O37: an answered access is inverted by its law; the second read sees a state that differs in `hostRdata` only, the second
STATUS write finds its flags cleared, and the second command finds BUSY = 1. -/
theorem accessesHaveTheirSideEffects : Obligations.AccessesHaveTheirSideEffects := by
  unfold Obligations.AccessesHaveTheirSideEffects
  intro s t v
  refine ⟨fun size off h => ?_, fun h => ?_, fun size off => hostWrite_elsewhere, hostWrite_cmd v s, fun _ hbusy => ?_⟩
  · obtain ⟨r, hr, rfl⟩ := hostRead_next h
    exact ⟨rfl, by simp [hostRead_of_access hr]⟩
  · rw [hostWrite_status] at h
    obtain rfl := Host.Outcome.next.inj h
    rw [hostWrite_status, writeStatus_writeStatus]
  · rw [hostWrite_cmd, acceptCommand_engine, acceptEngine_of_busy v _ hbusy, markOverrun]

end Sys2Proof.Machine

namespace Sys2Proof

/-! ### Which words decode (R47) -/

/-- The first check, on the OP field read as a number. -/
theorem opIsCommand_iff_toNat (op : BitVec 4) : opIsCommand op = true ↔ 1 ≤ op.toNat ∧ op.toNat ≤ 7 := by
  simp [opIsCommand, BitVec.le_def]

/-- R47's table of `USED(op)`. -/
theorem usedBits_eq (op : BitVec 4) :
    usedBits op =
      if op.toNat = 4 then 0x0000010F#32 else if op.toNat = 6 then 0x0000FF0F#32 else 0x0000000F#32 := by
  revert op; decide

theorem unusedBitsClear_iff (v : Word) : unusedBitsClear v = true ↔ v &&& ~~~usedBits (opField v) = 0#32 := by
  rw [unusedBitsClear, beq_iff_eq]

/-- Each of the seven OPs has its command in R52's `case`, whatever the other bits are. -/
theorem exists_decodeFields_ok {v : Word} (h : opIsCommand (opField v) = true) : ∃ i, decodeFields v = .ok i := by
  have hop := (opIsCommand_iff _).mp h
  simp only [List.mem_cons, List.not_mem_nil, or_false] at hop
  unfold decodeFields
  obtain hop | hop | hop | hop | hop | hop | hop := hop <;> rw [hop] <;> exact ⟨_, rfl⟩

/-- A word that fails a check is rejected, under one of the two names. -/
theorem exists_decode_error {v : Word} (h : ¬ legal v = true) : ∃ err, decode v = .error err := by
  obtain hop | hop := Bool.eq_false_or_eq_true (opIsCommand (opField v))
  · have hbits : unusedBitsClear v = false := by simpa [legal_iff, hop] using h
    exact ⟨_, decode_of_reserved_bits hop hbits⟩
  · exact ⟨_, decode_of_reserved_op hop⟩

/-- The decoder answers a command for the legal words and for no other (R47). -/
theorem exists_decode_ok_iff_legal (v : Word) : (∃ i, decode v = .ok i) ↔ legal v = true := by
  refine ⟨fun ⟨i, hi⟩ => ?_, fun h => ?_⟩
  · by_contra hlegal
    obtain ⟨err, herr⟩ := exists_decode_error hlegal
    exact nomatch hi.symm.trans herr
  · rw [decode_of_legal h]
    exact exists_decodeFields_ok ((legal_iff v).mp h).1

end Sys2Proof

namespace Sys2Proof.Machine

/-! ### A word that is no command (R47, R114) -/

theorem rejectIllegal_of_idle {g : Engine} (h : g.busy = false) :
    rejectIllegal g = completeAtOnce .illegalCmd g := by
  simp [rejectIllegal, h]

theorem acceptCommand_of_error {v : Word} {err : DecodeError} (h : decode v = .error err) (s : State) :
    acceptCommand v s = .next { s with engine := rejectIllegal s.engine } := by
  rw [acceptCommand, h]

/-- Settles O2: the statement's own words for R47 are the model's two checks, which decide whether the word decodes; a rejected
word reaches the engine only as `completeAtOnce`. -/
theorem exactlyLegalWordsRun : Obligations.ExactlyLegalWordsRun := by
  unfold Obligations.ExactlyLegalWordsRun
  intro v op used legalWord
  have hlegal : legal v = true ↔ legalWord := by
    rw [legal_iff, opIsCommand_iff_toNat, unusedBitsClear_iff, usedBits_eq]
    rfl
  refine ⟨(exists_decode_ok_iff_legal v).trans hlegal, fun hillegal s hidle => ?_⟩
  obtain ⟨err, herr⟩ := exists_decode_error (mt hlegal.mp hillegal)
  rw [acceptCommand_of_error herr, rejectIllegal_of_idle hidle, completeAtOnce]

end Sys2Proof.Machine

namespace Sys2Proof

/-! ### The decoder answers exactly the encoded word (R45, R46, R52) -/

/-- Every command assembles to a legal word, constructor by constructor. -/
theorem legal_encode (i : Instr) : legal (encode i) = true := by
  rw [legal_iff]
  cases i with
  | init => exact Laws.EncodesLegally.init
  | readTemp => exact Laws.EncodesLegally.readTemp
  | resetPresence => exact Laws.EncodesLegally.resetPresence
  | writeBit b => exact Laws.EncodesLegally.writeBit b
  | readBit => exact Laws.EncodesLegally.readBit
  | writeByte n => exact Laws.EncodesLegally.writeByte n
  | readByte => exact Laws.EncodesLegally.readByte

theorem opField_encode_writeByte (n : Byte) : opField (encode (.writeByte n)) = 0x6#4 := by
  refine BitVec.eq_of_getLsbD_eq fun i hi => ?_
  rw [getLsbD_opField _ hi]
  interval_cases i <;> simp [encode]

/-- The operand of a WRITE_BYTE stands in bits 15:8 of its word (R46). -/
theorem extractLsb'_encode_writeByte (n : Byte) : (encode (.writeByte n)).extractLsb' 8 8 = n := by
  refine BitVec.eq_of_getLsbD_eq fun i hi => ?_
  interval_cases i <;> simp [encode]

theorem decodeFields_encode (i : Instr) : decodeFields (encode i) = .ok i := by
  cases i with
  | init | readTemp | resetPresence | readBit | readByte => rfl
  | writeBit b => cases b <;> rfl
  | writeByte n =>
    unfold decodeFields
    rw [opField_encode_writeByte, extractLsb'_encode_writeByte]
    rfl

/-- A word that passes the second check is its OP and the bits of ARG its OP uses (R47). -/
theorem eq_opField_or_argBits {v : Word} (h : unusedBitsClear v = true) :
    v = (opField v).setWidth 32 ||| (v &&& argBits (opField v)) := by
  have hop : (opField v).setWidth 32 = v &&& 0x0000000F#32 := by
    refine BitVec.eq_of_getLsbD_eq fun i hi => ?_
    interval_cases i <;> simp [opField]
  have hused : v = v &&& usedBits (opField v) := by
    refine BitVec.eq_of_getLsbD_eq fun i hi => ?_
    cases hbit : (usedBits (opField v)).getLsbD i with
    | false => simp [hbit, getLsbD_of_unusedBitsClear h hbit]
    | true => simp [hbit]
  rw [hop, ← BitVec.and_or_distrib_left]
  exact hused

/-- Without operand bits the word is its OP alone. -/
theorem eq_setWidth_of_argBits_eq_zero {v : Word} {op : BitVec 4} (h : unusedBitsClear v = true)
    (hop : opField v = op) (harg : argBits op = 0#32) : v = op.setWidth 32 := by
  have hv := eq_opField_or_argBits h
  rwa [hop, harg, BitVec.and_zero, BitVec.or_zero] at hv

/-- The one bit of ARG that WRITE_BIT uses, as the encoder places it (R46). -/
theorem and_argBits_writeBit (v : Word) : v &&& argBits 0x4#4 = (BitVec.ofBool (v.getLsbD 8)).setWidth 32 <<< 8 := by
  refine BitVec.eq_of_getLsbD_eq fun i hi => ?_
  simp only [argBits]
  interval_cases i <;> simp

/-- The eight bits of ARG that WRITE_BYTE uses, as the encoder places them (R46). -/
theorem and_argBits_writeByte (v : Word) : v &&& argBits 0x6#4 = (v.extractLsb' 8 8).setWidth 32 <<< 8 := by
  refine BitVec.eq_of_getLsbD_eq fun i hi => ?_
  simp only [argBits]
  interval_cases i <;> simp

/-- A word whose unused bits are 0 is the word of the command its fields name, OP by OP. -/
theorem eq_encode_of_decodeFields {v : Word} {i : Instr} (hunused : unusedBitsClear v = true)
    (h : decodeFields v = .ok i) : v = encode i := by
  have hv := eq_opField_or_argBits hunused
  unfold decodeFields at h
  split at h
  case h_8 => cases h
  all_goals obtain rfl := Except.ok.inj h
  case h_4 hop => rwa [hop, and_argBits_writeBit] at hv
  case h_6 hop => rwa [hop, and_argBits_writeByte] at hv
  all_goals exact eq_setWidth_of_argBits_eq_zero hunused ‹opField v = _› rfl

/-- A word decodes to a command exactly if it is the word the command assembles to. -/
theorem decode_eq_ok_iff {v : Word} {i : Instr} : decode v = .ok i ↔ v = encode i := by
  constructor
  · intro h
    have hlegal : legal v = true := (exists_decode_ok_iff_legal v).mp ⟨i, h⟩
    rw [decode_of_legal hlegal] at h
    exact eq_encode_of_decodeFields ((legal_iff v).mp hlegal).2 h
  · rintro rfl
    rw [decode_of_legal (legal_encode i), decodeFields_encode]

end Sys2Proof

namespace Sys2Proof.Machine

/-! ### The line and the idle engine (R63, R65) -/

theorem line_eq_true_iff (own other : Bool) : line own other = true ↔ own = false ∧ other = false := by
  simp [line]

theorem takeSample_of_sampleAt {g : Engine} (h : sampleAt g.slot = some g.e) (b : Bool) :
    takeSample b g = { g with samp := line (driveLow g) b } := if_pos h

/-- Settles O12: at the sample instant `samp` takes `line`, and `line` is the wired AND. -/
theorem sampleIsTheWiredAnd : Obligations.SampleIsTheWiredAnd := by
  unfold Obligations.SampleIsTheWiredAnd
  refine ⟨line_eq_true_iff, fun b g h => ?_⟩
  rw [takeSample_of_sampleAt h]
  exact line_eq_true_iff _ _

/-- Settles O13: both halves are the laws of an engine with no slot in progress. -/
theorem idleTickChangesNothing : Obligations.IdleTickChangesNothing := by
  unfold Obligations.IdleTickChangesNothing
  exact fun b g h => ⟨driveLow_idle h, engineTick_idle h b⟩

/-! ### A command of one slot: its acceptance, its ticks and its last tick (R64, R66, R68, R89) -/

theorem beginCommand_of_ready (start : Engine → Engine) {g : Engine} (h : g.ready) :
    beginCommand start g = start { g with done := false, busy := true, result := .none } := by
  obtain ⟨hidle, hinit⟩ := h
  simp [beginCommand, hidle, hinit]

/-- A READY engine that begins a command with its slot is running it, in the slot's first tick. -/
theorem beginCommand_startSlot (op : Op) (k : SlotKind) {g : Engine} (h : g.ready) :
    beginCommand (fun g => startSlot k { g with op := op }) g = g.running op k :=
  beginCommand_of_ready _ h

/-- During a tick inside a slot the engine drives what the slot's pattern says (R62). -/
theorem driveLow_inSlot (d : Nat → Bool) (n : Nat) (g : Engine) : driveLow (inSlot d n g) = drive g.slot n := rfl

/-- An RST slot samples at tick 550: the counter moves and, past that tick, `samp` has its level. -/
theorem inSlot_rst (d : Nat → Bool) (n : Nat) {g : Engine} (h : g.slot = .rst) :
    inSlot d n g = { g with e := n, samp := if 550 < n then !d 550 else g.samp } := by
  simp [inSlot, h]

/-- Before each tick of the slot a command has begun with, the engine is `inSlot` and drives the slot's pattern. -/
theorem tickRun_running {k : SlotKind} (hk : k ≠ .none) (op : Op) (g : Engine) (d : Nat → Bool) {n : Nat}
    (hn : n < len k) :
    ∃ h, tickRun d n (g.running op k) = .ok h ∧ h = inSlot d n (g.running op k) ∧ driveLow h = drive k n :=
  ⟨_, tickRun_inSlot (g := g.running op k) hk rfl d n hn, rfl, driveLow_inSlot ..⟩

/-- The last tick of the slot a command has begun with: `SlotDone` decides. -/
theorem tickRun_running_len {k : SlotKind} (hk : k ≠ .none) (op : Op) (g : Engine) (d : Nat → Bool) :
    tickRun d (len k) (g.running op k) = slotDone (inSlot d (len k) (g.running op k)) :=
  tickRun_slot (g := g.running op k) hk rfl d

/-! ### The three bit-transport commands -/

/-- Settles O16: the RST slot run as one, with `SlotDone` turning its sample into PRESENCE. -/
theorem resetPresenceRunsOneResetSlot : Obligations.ResetPresenceRunsOneResetSlot := by
  unfold Obligations.ResetPresenceRunsOneResetSlot
  refine ⟨fun v => decode_eq_ok_iff, fun s d hready => ⟨?_, fun n hn => ?_, ?_⟩⟩
  · rw [exec_engine, execEngine, beginCommand_startSlot _ _ hready]
  · rw [← inSlot_rst d n rfl]
    exact tickRun_running (k := .rst) nofun .rstp s.engine d hn
  · refine (tickRun_running_len (k := .rst) nofun .rstp s.engine d).trans ?_
    rw [inSlot_rst d _ rfl]
    cases d 550 <;> rfl

/-- Settles O17: the write slot run as one; it samples nothing, so no draw is read. -/
theorem writeBitRunsOneWriteSlot : Obligations.WriteBitRunsOneWriteSlot := by
  unfold Obligations.WriteBitRunsOneWriteSlot
  refine ⟨fun v b => ?_, fun s b d hready => ⟨?_, fun n hn => ?_, ?_⟩⟩
  · rw [decode_eq_ok_iff]
    cases b <;> rfl
  · rw [exec_engine, execEngine, beginCommand_startSlot _ _ hready]
    rfl
  · obtain ⟨h, hrun, hslot, hdrive⟩ :=
      tickRun_running (bitSlot_ne_none b) .wbit s.engine d (hn.trans_eq (len_bitSlot b).symm)
    rw [inSlot_bitSlot d n (b := b) rfl] at hslot
    refine ⟨h, hrun, hslot, hdrive.trans ?_⟩
    cases b <;> rfl
  · have hend := tickRun_running_len (bitSlot_ne_none b) .wbit s.engine d
    rw [inSlot_bitSlot d _ (b := b) rfl, len_bitSlot] at hend
    exact hend

/-- Settles O18: the RD slot run as one, with `SlotDone` putting its sample into RXDATA. -/
theorem readBitReturnsTheLineAtFifteen : Obligations.ReadBitReturnsTheLineAtFifteen := by
  unfold Obligations.ReadBitReturnsTheLineAtFifteen
  refine ⟨fun v => decode_eq_ok_iff, fun s d hready => ⟨?_, fun n hn => ?_, ?_⟩⟩
  · rw [exec_engine, execEngine, beginCommand_startSlot _ _ hready]
  · rw [← inSlot_rd d rfl n]
    exact tickRun_running (k := .rd) nofun .rbit s.engine d hn
  · refine (tickRun_running_len (k := .rd) nofun .rbit s.engine d).trans ?_
    rw [inSlot_rd d rfl]
    cases d 15 <;> rfl

end Sys2Proof.Machine

namespace Sys2Proof.Machine

/-! ### A command of one byte: its acceptance and what follows each of its slots (R68, R79, R83, R89) -/

/-- A READY engine that begins WRITE_BYTE is running it, in the first tick of the slot of bit 0. -/
theorem beginCommand_startWriteByte (n : Byte) {g : Engine} (h : g.ready) :
    beginCommand (fun g => startWriteByte n { g with op := .wbyte }) g =
      startWriteByte n (g.running .wbyte (bitSlot (n.getLsbD 0))) :=
  beginCommand_of_ready _ h

/-- A READY engine that begins READ_BYTE is running it, in the first tick of its first read slot. -/
theorem beginCommand_startReadByte {g : Engine} (h : g.ready) :
    beginCommand (fun g => startReadByte { g with op := .rbyte }) g = startReadByte (g.running .rbyte .rd) :=
  beginCommand_of_ready _ h

/-- When a slot of WRITE_BYTE completes, the byte goes on or the command ends with OK (R68). -/
theorem slotDone_of_wbyte {g : Engine} (h : g.op = .wbyte) : slotDone g = .ok (afterWriteByte (finish .ok) g) := by
  rw [slotDone, h, writeByteCmdSlotDone_eq]

/-- READ_BYTE once its byte is there: RXDATA takes it and the command ends with OK (R68, R86). -/
def finishReadByte (g : Engine) : Engine := finish .ok { g with rxdata := g.shreg.setWidth 32 }

/-- When a slot of READ_BYTE completes, the byte goes on or the command delivers it (R68). -/
theorem slotDone_of_rbyte {g : Engine} (h : g.op = .rbyte) : slotDone g = .ok (afterReadByte finishReadByte g) := by
  rw [slotDone, h, readByteCmdSlotDone_eq]
  rfl

/-- The pattern of the slot that sends a bit (R62, R71): low for 6 ticks for a 1, for 60 for a 0. -/
theorem drive_bitSlot (b : Bool) (e : Nat) : drive (bitSlot b) e = decide (e < if b then 6 else 60) := by
  cases b <;> rfl

/-! ### The two byte-transport commands -/

/-- Settles O19: the byte run slot by slot, each slot sending its own bit, and then as one; write slots read no draw. -/
theorem writeByteSendsBitsInOrder : Obligations.WriteByteSendsBitsInOrder := by
  unfold Obligations.WriteByteSendsBitsInOrder
  refine ⟨fun v n => decode_eq_ok_iff, fun s n d hready => ?_⟩
  have hdone (x : Engine) (hop : x.op = .wbyte) (_ : x.step = s.engine.step) :
      slotDone x = .ok (afterWriteByte (finish .ok) x) := slotDone_of_wbyte hop
  refine ⟨?_, fun i hi j hj => ⟨_, ?_, rfl, drive_bitSlot (n.getLsbD i) j⟩, ?_⟩
  · rw [exec_engine, execEngine, beginCommand_startWriteByte n hready]
    rfl
  · exact tickRun_writeByte_mid (g := s.engine.running .wbyte (bitSlot (n.getLsbD 0))) d hdone hi hj
  · exact tickRun_writeByte (g := s.engine.running .wbyte (bitSlot (n.getLsbD 0))) d hdone

/-- Settles O20: the byte run slot by slot and then as one; RXDATA is written by what follows the eighth slot alone. -/
theorem readByteReturnsSampledBits : Obligations.ReadByteReturnsSampledBits := by
  unfold Obligations.ReadByteReturnsSampledBits
  refine ⟨fun v => decode_eq_ok_iff, fun s d hready => ?_⟩
  have hdone (x : Engine) (hop : x.op = .rbyte) (_ : x.step = s.engine.step) :
      slotDone x = .ok (afterReadByte finishReadByte x) := slotDone_of_rbyte hop
  refine ⟨?_, fun i hi j hj => ?_, ?_⟩
  · rw [exec_engine, execEngine, beginCommand_startReadByte hready]
    rfl
  · obtain ⟨sh, x, hrun⟩ := tickRun_readByte_mid (g := s.engine.running .rbyte .rd) d hdone hi hj
    exact ⟨_, hrun, rfl⟩
  · exact tickRun_readByte (g := s.engine.running .rbyte .rd) d hdone

end Sys2Proof.Machine

namespace Sys2Proof.Machine

/-! ### READ_TEMP's first reset (R95, R97) -/

/-- An RST slot before each of its 960 ticks, whatever command runs it. -/
theorem tickRun_rst {g : Engine} (hslot : g.slot = .rst) (he : g.e = 0) (d : Nat → Bool) {n : Nat} (hn : n < 960) :
    tickRun d n g = .ok { g with e := n, samp := if 550 < n then !d 550 else g.samp } := by
  have hlen : n < len g.slot := by rwa [hslot, len_rst]
  rw [tickRun_inSlot (by simp [hslot]) he d n hlen, inSlot_rst d n hslot]

/-- An RST slot run to its end: `SlotDone` decides, with the sample of tick 550. -/
theorem tickRun_rst_end {g : Engine} (hslot : g.slot = .rst) (he : g.e = 0) (d : Nat → Bool) :
    tickRun d 960 g = slotDone { g with e := 960, samp := !d 550 } := by
  have hend := tickRun_slot (by simp [hslot]) he d
  simpa [inSlot_rst d _ hslot, hslot] using hend

/-- No presence at RESET_1: READ_TEMP ends there, its one conditional exit (R95). -/
theorem slotDone_of_reset1_absent {g : Engine} (hop : g.op = .readt) (hstep : g.step = .reset1)
    (habsent : g.samp = true) :
    slotDone g = .ok (finish .noPresence { g with presence := false, tempF32 := sentinelF32 }) := by
  simp [slotDone, hop, seqSlotDone, hstep, habsent]

/-- Settles O23: the reset slot run tick by tick and then as one; with no pull at tick 550 its sample is high, and
`SlotDone` takes the exit. -/
theorem readTempWithoutPresenceStopsAtOnce : Obligations.ReadTempWithoutPresenceStopsAtOnce := by
  unfold Obligations.ReadTempWithoutPresenceStopsAtOnce
  intro g d habsent g0
  refine ⟨fun n hn => ⟨_, tickRun_rst (g := g0) rfl rfl d hn, rfl, rfl, rfl, rfl⟩, ?_⟩
  have hsamp : (!d 550) = true := by rw [habsent]; rfl
  rw [tickRun_rst_end (g := g0) rfl rfl d, slotDone_of_reset1_absent rfl rfl hsamp, hsamp]
  rfl

/-! ### A command while none runs: INIT, NOT_INITIALIZED, or a start (R89 to R92) -/

theorem execEngine_init_of_idle (l : Bool) {g : Engine} (h : g.busy = false) :
    execEngine .init l g = takeLineReady l g := by
  simp [execEngine, h]

theorem beginCommand_of_uninitialized (start : Engine → Engine) {g : Engine} (hidle : g.busy = false)
    (hinit : g.initialized = false) : beginCommand start g = completeAtOnce .notInitialized g := by
  simp [beginCommand, hidle, hinit]

/-- Every command but INIT begins by `beginCommand`, so with INITIALIZED = 0 none of them starts (R92). -/
theorem execEngine_of_uninitialized {i : Instr} (hi : i ≠ .init) (l : Bool) {g : Engine} (hidle : g.busy = false)
    (hinit : g.initialized = false) : execEngine i l g = completeAtOnce .notInitialized g := by
  cases i with
  | init => exact absurd rfl hi
  | readTemp | resetPresence | writeBit | readBit | writeByte | readByte =>
    rw [execEngine, beginCommand_of_uninitialized _ hidle hinit]

/-- What every start of a command has in common (R89): it is running, its results are cleared, and its first slot is at its
first tick. -/
abbrev Engine.justStarted (g : Engine) : Prop :=
  g.busy = true ∧ g.done = false ∧ g.result = .none ∧ g.op ≠ .none ∧ g.slot ≠ .none ∧ g.e = 0

/-- Every command but INIT starts on a READY engine (R90's last check). -/
theorem execEngine_of_ready {i : Instr} (hi : i ≠ .init) (l : Bool) {g : Engine} (h : g.ready) :
    (execEngine i l g).justStarted := by
  cases i with
  | init => exact absurd rfl hi
  | readTemp | resetPresence | writeBit | readBit | writeByte | readByte =>
    rw [execEngine, beginCommand_of_ready _ h]
    simp [Engine.justStarted]

/-- Settles O7: INIT's word is the decoder's; its effect is `takeLineReady` while idle and `markOverrun` while BUSY = 1. -/
theorem initTakesLineReady : Obligations.InitTakesLineReady := by
  unfold Obligations.InitTakesLineReady
  refine ⟨fun v => decode_eq_ok_iff, fun s => ⟨fun hidle => ?_, fun hbusy => ?_⟩⟩
  · rw [exec_engine, execEngine_init_of_idle _ hidle, takeLineReady, completeAtOnce]
  · rw [exec_engine, execEngine_of_busy _ _ hbusy, markOverrun]

/-- Settles O8: the check of INITIALIZED turns the command away before anything of it starts. -/
theorem uninitializedCommandIsNotStarted : Obligations.UninitializedCommandIsNotStarted := by
  unfold Obligations.UninitializedCommandIsNotStarted
  intro i s hi hidle hinit
  rw [exec_engine, execEngine_of_uninitialized hi _ hidle hinit, completeAtOnce]

/-- A word that decodes acts as its command (R89). -/
theorem acceptCommand_of_ok {v : Word} {i : Instr} (h : decode v = .ok i) (s : State) :
    acceptCommand v s = exec i s := by
  rw [acceptCommand, h]

/-- Settles O6, check by check: BUSY and the decoder decide first, then INIT, then INITIALIZED. -/
theorem acceptCommandChecksInOrder : Obligations.AcceptCommandChecksInOrder := by
  unfold Obligations.AcceptCommandChecksInOrder
  intro v s
  refine ⟨fun hbusy => ?overrun, fun hidle hillegal => ?illegal, fun hidle hv => ?init,
    fun hidle i hv hi hinit => ?notInitialized, fun hidle i hv hi hinit => ?start⟩
  case overrun => rw [acceptCommand_engine, acceptEngine_of_busy v _ hbusy, markOverrun]
  case illegal =>
    obtain ⟨err, herr⟩ := exists_decode_error (v := v) (by simp [hillegal])
    rw [acceptCommand_of_error herr, rejectIllegal_of_idle hidle, completeAtOnce]
  case init => rw [acceptCommand_of_ok hv, exec_engine, execEngine_init_of_idle _ hidle, takeLineReady, completeAtOnce]
  case notInitialized => rw [acceptCommand_of_ok hv, uninitializedCommandIsNotStarted i s hi hidle hinit]
  case start =>
    exact ⟨_, (acceptCommand_of_ok hv s).trans (exec_engine i s), execEngine_of_ready hi _ ⟨hidle, hinit⟩⟩

end Sys2Proof.Machine

namespace Sys2Proof.Machine

/-! ### A tick does not look at OVERRUN (R115) -/

/-- The same engine, with this value of STATUS.OVERRUN. -/
def withOverrun (x : Bool) (g : Engine) : Engine := { g with overrun := x }

/-- What runs an engine on whatever its OVERRUN is, and carries that value along. -/
abbrev IgnoresOverrun (f : Engine → Engine) : Prop := ∀ x g, f (withOverrun x g) = withOverrun x (f g)

@[simp] theorem withOverrun_overrun (x : Bool) (g : Engine) : (withOverrun x g).overrun = x := rfl
@[simp] theorem withOverrun_op (x : Bool) (g : Engine) : (withOverrun x g).op = g.op := rfl
@[simp] theorem withOverrun_step (x : Bool) (g : Engine) : (withOverrun x g).step = g.step := rfl
@[simp] theorem withOverrun_samp (x : Bool) (g : Engine) : (withOverrun x g).samp = g.samp := rfl
@[simp] theorem withOverrun_bitn (x : Bool) (g : Engine) : (withOverrun x g).bitn = g.bitn := rfl

theorem takeSample_withOverrun (b : Bool) : IgnoresOverrun (takeSample b) := fun x g => by
  unfold takeSample
  exact (apply_ite (withOverrun x) (sampleAt g.slot = some g.e) { g with samp := line (driveLow g) b } g).symm

/-- Whether a write slot was its byte's last is decided by the count alone (R80). -/
theorem afterWriteByte_eq_ite (f : Engine → Engine) (g : Engine) :
    afterWriteByte f g =
      if g.bitn = 7 then f (shiftOut g) else startSlot (bitSlot ((g.shreg >>> 1).getLsbD 0)) (shiftOut g) := by
  obtain ⟨hlast, e⟩ | ⟨hmore, e⟩ := afterWriteByte_cases f g
  · rw [e, if_pos hlast]
  · rw [e, if_neg hmore]

/-- Whether a read slot was its byte's last is decided by the count alone (R84). -/
theorem afterReadByte_eq_ite (f : Engine → Engine) (g : Engine) :
    afterReadByte f g = if g.bitn = 7 then f (shiftIn g) else startSlot .rd (shiftIn g) := by
  obtain ⟨hlast, e⟩ | ⟨hmore, e⟩ := afterReadByte_cases f g
  · rw [e, if_pos hlast]
  · rw [e, if_neg hmore]

theorem afterWriteByte_withOverrun {f : Engine → Engine} (hf : IgnoresOverrun f) :
    IgnoresOverrun (afterWriteByte f) := fun x g => by
  rw [afterWriteByte_eq_ite, afterWriteByte_eq_ite, withOverrun_bitn]
  split
  · exact hf x (shiftOut g)
  · rfl

theorem afterReadByte_withOverrun {f : Engine → Engine} (hf : IgnoresOverrun f) :
    IgnoresOverrun (afterReadByte f) := fun x g => by
  rw [afterReadByte_eq_ite, afterReadByte_eq_ite, withOverrun_bitn]
  split
  · exact hf x (shiftIn g)
  · rfl

/-- READ_TEMP's sequence, state by state (R95): RESET_1 looks at the sample, the byte states at their byte. -/
theorem seqSlotDone_withOverrun : IgnoresOverrun seqSlotDone := fun x g => by
  unfold seqSlotDone
  rw [withOverrun_step]
  cases g.step with
  | reset1 =>
    dsimp only
    rw [withOverrun_samp]
    split <;> rfl
  | wait750ms | reset2 => rfl
  | convSkip | convCmd | rsSkip | rsCmd => exact afterWriteByte_withOverrun (fun _ _ => rfl) x g
  | rsLsb | rsMsb => exact afterReadByte_withOverrun (fun _ _ => rfl) x g

theorem slotDone_withOverrun (x : Bool) (g : Engine) :
    slotDone (withOverrun x g) = (slotDone g).map (withOverrun x) := by
  unfold slotDone
  rw [withOverrun_op]
  cases g.op with
  | none | rstp | wbit | rbit => rfl
  | wbyte => exact congrArg Except.ok (afterWriteByte_withOverrun (fun _ _ => rfl) x g)
  | rbyte => exact congrArg Except.ok (afterReadByte_withOverrun (fun _ _ => rfl) x g)
  | readt => exact congrArg Except.ok (seqSlotDone_withOverrun x g)

/-- A tick runs alike whatever OVERRUN is, in each of its three cases (R66). -/
theorem engineTick_withOverrun (b x : Bool) (g : Engine) :
    engineTick b (withOverrun x g) = (engineTick b g).map (withOverrun x) := by
  by_cases hidle : g.slot = .none
  · rw [engineTick_idle hidle, engineTick_idle (g := withOverrun x g) hidle]
    rfl
  by_cases hlast : g.e + 1 = len g.slot
  · rw [engineTick_last hidle hlast, engineTick_last (g := withOverrun x g) hidle hlast, takeSample_withOverrun]
    exact slotDone_withOverrun x { takeSample b g with e := g.e + 1 }
  · rw [engineTick_mid hidle hlast, engineTick_mid (g := withOverrun x g) hidle hlast, takeSample_withOverrun]
    rfl

/-- A tick carries OVERRUN along: with the value it has already, the tick is the same tick. -/
theorem engineTick_overrun {b : Bool} {g h : Engine} (ht : engineTick b g = .ok h) : h.overrun = g.overrun := by
  have hsame : engineTick b g = (engineTick b g).map (withOverrun g.overrun) := engineTick_withOverrun b g.overrun g
  rw [ht] at hsame
  have hh : h = withOverrun g.overrun h := Except.ok.inj hsame
  rw [hh, withOverrun_overrun]

/-! ### What the host's accesses do to OVERRUN (R34, R115) -/

theorem beginCommand_overrun {start : Engine → Engine} (hstart : ∀ g, (start g).overrun = g.overrun) (g : Engine) :
    (beginCommand start g).overrun = (g.overrun || g.busy) := by
  obtain ⟨hbusy, e⟩ | ⟨hidle, -, e⟩ | ⟨hidle, -, e⟩ := beginCommand_cases start g
  · simp [e, hbusy]
  · simp [e, hstart, hidle]
  · simp [e, hidle]

theorem rejectIllegal_overrun (g : Engine) : (rejectIllegal g).overrun = (g.overrun || g.busy) := by
  obtain ⟨hbusy, e⟩ | ⟨hidle, e⟩ := rejectIllegal_cases g
  · simp [e, hbusy]
  · simp [e, hidle]

/-- A legal command sets OVERRUN while BUSY = 1, and leaves it as it is otherwise. -/
theorem execEngine_overrun (i : Instr) (l : Bool) (g : Engine) :
    (execEngine i l g).overrun = (g.overrun || g.busy) := by
  cases i with
  | init => cases hbusy : g.busy <;> simp [execEngine, hbusy]
  | readTemp | resetPresence | writeBit | readBit | writeByte | readByte =>
    rw [execEngine, beginCommand_overrun]
    exact fun _ => rfl

/-- A CMD write sets OVERRUN while BUSY = 1, and leaves it as it is otherwise. -/
theorem acceptEngine_overrun (v : Word) (l : Bool) (g : Engine) :
    (acceptEngine v l g).overrun = (g.overrun || g.busy) := by
  unfold acceptEngine
  cases decode v with
  | ok i => exact execEngine_overrun i l g
  | error _ => exact rejectIllegal_overrun g

/-- A host write keeps OVERRUN set, unless it is a write of STATUS with bit 11 set. -/
theorem hostWrite_keeps_overrun {size : AccessSize} {off : Nat} {v : Word} {s t : State}
    (hset : s.engine.overrun = true) (h : hostWrite size off v s = .next t) :
    t.engine.overrun = true ∨ (size = .word ∧ off = 0x04 ∧ v.getLsbD 11 = true) := by
  obtain ⟨r, hr, ⟨-, rfl⟩ | ⟨rfl, rfl⟩ | ⟨-, -, rfl⟩⟩ := hostWrite_next h
  · exact .inl (by simp [acceptEngine_overrun, hset])
  · obtain ⟨hword, -, hreg⟩ := hostAccess_ok_iff.mp hr
    cases hbit : v.getLsbD 11 with
    | true => exact .inr ⟨hword, hostReg?_status_iff.mp hreg, rfl⟩
    | false => exact .inl (by rw [writeStatus_overrun, hset, hbit]; rfl)
  · exact .inl hset

/-- OVERRUN is sticky, input by input: only `rst` and a write of STATUS can clear it. -/
theorem step_keeps_overrun {s t : State} (hset : s.engine.overrun = true) (h : step s = .next t) :
    t.engine.overrun = true ∨ s.inputs.head? = some .rst ∨
      ∃ v, s.inputs.head? = some (.hostWrite .word 0x04 v) ∧ v.getLsbD 11 = true := by
  obtain ⟨-, g, htick, rfl⟩ | ⟨rest, hinput⟩ := step_cases h
  · exact .inl ((engineTick_overrun htick).trans hset)
  obtain ⟨b, g, -, htick, rfl⟩ | ⟨size, off, v, hin, hwrite⟩ | ⟨size, off, r, -, -, rfl⟩ | ⟨level, -, rfl⟩ | ⟨hin, -⟩ :=
    hinput
  · exact .inl ((engineTick_overrun htick).trans hset)
  · refine (hostWrite_keeps_overrun (s := { s with inputs := rest }) hset hwrite).imp_right ?_
    rintro ⟨rfl, rfl, hbit⟩
    exact .inr ⟨v, by rw [hin, List.head?_cons], hbit⟩
  · exact .inl hset
  · exact .inl hset
  · exact .inr (.inl (by rw [hin, List.head?_cons]))

/-- Settles O9: a CMD write while BUSY = 1 is `markOverrun`; a tick commutes with any change of OVERRUN, and therefore keeps it;
no other input but `rst` and the write of STATUS clears it. -/
theorem overrunIsIgnoredAndSticky : Obligations.OverrunIsIgnoredAndSticky := by
  unfold Obligations.OverrunIsIgnoredAndSticky
  refine ⟨fun v s hbusy => ?ignored, fun b x g => ?unseen, fun s t => step_keeps_overrun, fun v s hbit => ?cleared⟩
  case ignored => rw [acceptCommand_engine, acceptEngine_of_busy v _ hbusy, markOverrun]
  case unseen =>
    refine (engineTick_withOverrun b x g).trans ?_
    cases engineTick b g <;> rfl
  case cleared => exact ⟨_, hostWrite_status v s, by rw [writeStatus_overrun, hbit, Bool.not_true, Bool.and_false]⟩

end Sys2Proof.Machine

namespace Sys2Proof

/-- Settles O1: the decoder's law, command by command, is the statement. -/
theorem decodeAnswersExactlyTheEncodedWord : Obligations.DecodeAnswersExactlyTheEncodedWord := by
  unfold Obligations.DecodeAnswersExactlyTheEncodedWord
  exact fun _ _ => decode_eq_ok_iff

/-! ### All commands and their words -/

/-- Every command once: the five without an operand, the two WRITE_BITs and the 256 WRITE_BYTEs (R45, R46). -/
def allInstrs : List Instr :=
  [.init, .readTemp, .resetPresence, .readBit, .readByte] ++ [false, true].map .writeBit ++
    (List.finRange 256).map fun n => .writeByte (BitVec.ofFin n)

theorem mem_allInstrs (i : Instr) : i ∈ allInstrs := by
  cases i with
  | init | readTemp | resetPresence | readBit | readByte => simp [allInstrs]
  | writeBit b => cases b <;> simp [allInstrs]
  | writeByte n => exact List.mem_append_right _ (List.mem_map.mpr ⟨n.toFin, List.mem_finRange _, rfl⟩)

theorem nodup_allInstrs : allInstrs.Nodup := by
  refine List.Nodup.append (by decide) ?_ ?_
  · exact (List.nodup_finRange 256).map fun a b h => BitVec.ofFin.inj (Instr.writeByte.inj h)
  · intro i hi hbyte
    obtain ⟨n, -, rfl⟩ := List.mem_map.mp hbyte
    simp at hi

/-- Two commands do not share a word: the word decodes to both. -/
theorem encode_injective : Function.Injective encode := fun _ _ h =>
  Except.ok.inj ((decode_eq_ok_iff.mpr rfl).symm.trans (decode_eq_ok_iff.mpr h))

/-- Settles O4: the legal words are the words of the commands, and no two commands share one. -/
theorem legalWordsAreTwoHundredSixtyThree : Obligations.LegalWordsAreTwoHundredSixtyThree := by
  unfold Obligations.LegalWordsAreTwoHundredSixtyThree
  refine ⟨allInstrs.map encode, by simp [allInstrs], nodup_allInstrs.map encode_injective, fun v => ?_⟩
  rw [← exists_decode_ok_iff_legal, List.mem_map]
  refine exists_congr fun i => ?_
  rw [decode_eq_ok_iff, eq_comm]
  exact (and_iff_right (mem_allInstrs i)).symm

/-! ### Words and their bytes (R38, R49) -/

/-- A word's bytes, put together again, are the word. -/
theorem wordOfBytes_extract (v : Word) :
    wordOfBytes (v.extractLsb' 0 8) (v.extractLsb' 8 8) (v.extractLsb' 16 8) (v.extractLsb' 24 8) = v := by
  refine BitVec.eq_of_getLsbD_eq fun i hi => ?_
  simp only [wordOfBytes, BitVec.getLsbD_append, BitVec.getLsbD_extractLsb']
  interval_cases i <;> simp

/-- From a word's bytes the word is decoded, and the bytes behind it are handed back. -/
theorem decodeBytes_bytesOfWord (v : Word) (rest : List Byte) :
    decodeBytes (bytesOfWord v ++ rest) = (decode v).map (·, rest) := by
  simp only [bytesOfWord, List.cons_append, List.nil_append, decodeBytes, wordOfBytes_extract]
  cases decode v <;> rfl

/-- Settles O5: byte k is cut out at bit 8k, and the four bytes are put together again before they are decoded. -/
theorem bytesAreLittleEndian : Obligations.BytesAreLittleEndian := by
  unfold Obligations.BytesAreLittleEndian
  refine ⟨fun v k hk => ?_, fun v i rest h => ?_, fun bs hbs => ?_⟩
  · interval_cases k <;> rfl
  · rw [decodeBytes_bytesOfWord, h]
    rfl
  · match bs, hbs with
    | [], _ | [_], _ | [_, _], _ | [_, _, _], _ => rfl

/-- Settles O3: each word is the word of its command, and the two others fail a check. -/
theorem tableWordsDecode : Obligations.TableWordsDecode := by
  unfold Obligations.TableWordsDecode
  refine ⟨?_, ?_, ?_, ?_, ?_, ?_, ?_, ?_, decode_of_reserved_bits rfl rfl, decode_of_reserved_op rfl⟩ <;>
    exact decode_eq_ok_iff.mpr rfl

end Sys2Proof

namespace Sys2Proof.Machine

/-! ### The drive pattern (R62) -/

/-- Settles O11: the pattern slot by slot; its start, its end and its sample instant. -/
theorem driveFollowsThePattern : Obligations.DriveFollowsThePattern := by
  unfold Obligations.DriveFollowsThePattern
  refine ⟨fun e => ⟨rfl, rfl, rfl, rfl, rfl, rfl⟩, fun k hk => ?_⟩
  refine ⟨fun hcwait => ?_, ?_, fun e he => (sampleAt_released he).1⟩
  · cases k with
    | none => exact absurd rfl hk
    | cwait => exact absurd rfl hcwait
    | rst | w0 | w1 | rd => rfl
  · cases k <;> rfl

/-! ### Commands, words and the inputs that carry them -/

/-- Settles O22: READ_TEMP's word is the decoder's; on a READY engine it starts. -/
theorem readTempStartsWithAReset : Obligations.ReadTempStartsWithAReset := by
  unfold Obligations.ReadTempStartsWithAReset
  refine ⟨fun v => decode_eq_ok_iff, fun s hready => ?_⟩
  rw [exec_engine, execEngine, beginCommand_of_ready _ hready]
  rfl

/-- A step takes its input away and applies it. -/
theorem step_cons {s : State} {i : Input} {rest : List Input} (h : s.inputs = i :: rest) :
    step s = applyInput i { s with inputs := rest } := by
  rw [step, h]

/-- A legal word written to CMD runs its command. -/
theorem step_cmd {s : State} {rest : List Input} {v : Word} {i : Instr}
    (hin : s.inputs = .hostWrite .word 0x00 v :: rest) (hv : decode v = .ok i) :
    step s = exec i { s with inputs := rest } := by
  rw [step_cons hin, applyInput, hostWrite_cmd, acceptCommand_of_ok hv]

theorem decode_tableWord {nbits w : Nat} {i : Instr} (h : decodeTableWord nbits w = some i) :
    decode (tableWord nbits w) = .ok i := by
  have hbytes := decodeBytes_bytesOfWord (tableWord nbits w) []
  rw [List.append_nil] at hbytes
  rw [decodeTableWord, hbytes] at h
  cases hv : decode (tableWord nbits w) with
  | ok j => rw [hv] at h; exact congrArg Except.ok (Option.some.inj h)
  | error err => rw [hv] at h; cases h

/-- Settles O42: the word's write is the step's input, and the write of a legal word is its command. -/
theorem stepRunsTheDecodedCommand : Obligations.StepRunsTheDecodedCommand := by
  unfold Obligations.StepRunsTheDecodedCommand
  exact ⟨fun _ _ _ _ => step_cmd, fun s nbits w _ h => step_cmd (withFetchWord_inputs s nbits w) (decode_tableWord h)⟩

/-- Settles O40: the step of `rst` is `assertRst`, whose engine is the reset engine. -/
theorem rstAbortsAndResets : Obligations.RstAbortsAndResets := by
  unfold Obligations.RstAbortsAndResets
  exact fun s rest hin => ⟨_, step_cons hin, rfl, driveLow_reset, rfl, rfl, rfl, rfl⟩

/-! ### Which accesses are admitted (R35, R36) -/

/-- The window holds a register at each aligned offset below 0x20 and none beyond (R35). -/
theorem hostReg?_isSome_iff {off : Nat} (h : off % 4 = 0) : (hostReg? off).isSome ↔ off < 32 := by
  constructor
  · intro hsome
    unfold hostReg? at hsome
    split at hsome <;> simp_all
  · intro hoff
    obtain ⟨k, rfl⟩ := Nat.dvd_of_mod_eq_zero h
    have hk : k < 8 := by omega
    interval_cases k <;> rfl

theorem hostAccess_narrow {size : AccessSize} (h : size ≠ .word) (off : Nat) :
    hostAccess size off = .error .narrowAccess := if_pos h

theorem hostAccess_misaligned {off : Nat} (h : off % 4 ≠ 0) : hostAccess .word off = .error .misalignedAccess := by
  simp [hostAccess, h]

theorem hostAccess_outside {off : Nat} (h : off % 4 = 0) (hoff : 32 ≤ off) :
    hostAccess .word off = .error .outsideWindow := by
  have hnone : hostReg? off = none := by
    rw [← Option.not_isSome_iff_eq_none, hostReg?_isSome_iff h]
    omega
  simp [hostAccess, h, hnone]

theorem hostRead_of_refusal {size : AccessSize} {off : Nat} {r : Refusal} (h : hostAccess size off = .error r)
    (s : State) : hostRead size off s = .refused r := by
  rw [hostRead, h]

theorem hostWrite_of_refusal {size : AccessSize} {off : Nat} {r : Refusal} (h : hostAccess size off = .error r)
    (v : Word) (s : State) : hostWrite size off v s = .refused r := by
  rw [hostWrite, h]

/-- A write to a register always gives a next state. -/
theorem exists_writeReg_next (r : HostReg) (v : Word) (s : State) : ∃ t, writeReg r v s = .next t := by
  cases r with
  | cmd => exact ⟨_, acceptCommand_engine v s⟩
  | status | rxdata | tempRaw | tempF32 | reserved => exact ⟨_, rfl⟩

/-- Settles O36, check by check of the access (R36). -/
theorem onlyAlignedWordAccessesAreAdmitted : Obligations.OnlyAlignedWordAccessesAreAdmitted := by
  unfold Obligations.OnlyAlignedWordAccessesAreAdmitted
  intro s size off v
  refine ⟨?admitted, fun hsize => ?narrow, ?misaligned, ?outside⟩
  case admitted =>
    rintro hword halign hoff
    obtain ⟨r, hr⟩ := Option.isSome_iff_exists.mp ((hostReg?_isSome_iff halign).mpr hoff)
    have haccess : hostAccess size off = .ok r := hostAccess_ok_iff.mpr ⟨hword, halign, hr⟩
    rw [hostWrite_of_access haccess]
    exact ⟨⟨_, hostRead_of_access haccess s⟩, exists_writeReg_next r v s⟩
  case narrow =>
    exact ⟨hostRead_of_refusal (hostAccess_narrow hsize off) s, hostWrite_of_refusal (hostAccess_narrow hsize off) v s⟩
  case misaligned =>
    rintro rfl halign
    exact ⟨hostRead_of_refusal (hostAccess_misaligned halign) s, hostWrite_of_refusal (hostAccess_misaligned halign) v s⟩
  case outside =>
    rintro rfl halign hoff
    exact ⟨hostRead_of_refusal (hostAccess_outside halign hoff) s,
      hostWrite_of_refusal (hostAccess_outside halign hoff) v s⟩

end Sys2Proof.Machine

namespace Sys2Proof.Machine

/-! ### What a CMD write does to the engine, said once (R89, R90) -/

/-- A READY engine once it has accepted a command other than INIT: the command runs, in the first tick of its first slot.
INIT starts nothing. -/
def started : Instr → Engine → Engine
  | .init, g => g
  | .readTemp, g => { g.running .readt .rst with step := .reset1, presence2 := false }
  | .resetPresence, g => g.running .rstp .rst
  | .writeBit b, g => g.running .wbit (bitSlot b)
  | .readBit, g => g.running .rbit .rd
  | .writeByte n, g => startWriteByte n (g.running .wbyte (bitSlot (n.getLsbD 0)))
  | .readByte, g => startReadByte (g.running .rbyte .rd)

/-- On a READY engine every command but INIT starts. -/
theorem execEngine_eq_started {i : Instr} (hi : i ≠ .init) (l : Bool) {g : Engine} (h : g.ready) :
    execEngine i l g = started i g := by
  cases i with
  | init => exact absurd rfl hi
  | readTemp | resetPresence | writeBit | readBit | writeByte | readByte =>
    rw [execEngine, beginCommand_of_ready _ h]
    rfl

/-- Everything a legal command can do at its CMD write: an overrun, INIT, NOT_INITIALIZED, or a start. -/
theorem execEngine_cases (i : Instr) (l : Bool) (g : Engine) :
    (g.busy = true ∧ execEngine i l g = markOverrun g) ∨
    (g.busy = false ∧ i = .init ∧ execEngine i l g = takeLineReady l g) ∨
    (g.busy = false ∧ g.initialized = false ∧ execEngine i l g = completeAtOnce .notInitialized g) ∨
    (g.ready ∧ i ≠ .init ∧ execEngine i l g = started i g) := by
  obtain hbusy | hidle := Bool.eq_false_or_eq_true g.busy
  · exact .inl ⟨hbusy, execEngine_of_busy i l hbusy⟩
  by_cases hi : i = .init
  · exact .inr (.inl ⟨hidle, hi, hi ▸ execEngine_init_of_idle l hidle⟩)
  obtain hinit | huninit := Bool.eq_false_or_eq_true g.initialized
  · exact .inr (.inr (.inr ⟨⟨hidle, hinit⟩, hi, execEngine_eq_started hi l ⟨hidle, hinit⟩⟩))
  · exact .inr (.inr (.inl ⟨hidle, huninit, execEngine_of_uninitialized hi l hidle huninit⟩))

/-- Everything a word written to CMD can do. -/
theorem acceptEngine_cases (v : Word) (l : Bool) (g : Engine) :
    (g.busy = true ∧ acceptEngine v l g = markOverrun g) ∨
    (g.busy = false ∧ v = encode .init ∧ acceptEngine v l g = takeLineReady l g) ∨
    (g.busy = false ∧ g.initialized = false ∧ acceptEngine v l g = completeAtOnce .notInitialized g) ∨
    (g.busy = false ∧ acceptEngine v l g = completeAtOnce .illegalCmd g) ∨
    (g.ready ∧ ∃ i, i ≠ .init ∧ acceptEngine v l g = started i g) := by
  unfold acceptEngine
  cases hv : decode v with
  | ok i =>
    obtain h | ⟨hidle, rfl, h⟩ | h | ⟨hready, hi, h⟩ := execEngine_cases i l g
    · exact .inl h
    · exact .inr (.inl ⟨hidle, decode_eq_ok_iff.mp hv, h⟩)
    · exact .inr (.inr (.inl h))
    · exact .inr (.inr (.inr (.inr ⟨hready, i, hi, h⟩)))
  | error _ =>
    obtain h | h := rejectIllegal_cases g
    · exact .inl h
    · exact .inr (.inr (.inr (.inl h)))

/-! ### What the start of a command leaves unchanged -/

section
variable (i : Instr) (g : Engine)

@[simp] theorem started_rxdata : (started i g).rxdata = g.rxdata := by cases i <;> rfl
@[simp] theorem started_tempRaw : (started i g).tempRaw = g.tempRaw := by cases i <;> rfl
@[simp] theorem started_tempF32 : (started i g).tempF32 = g.tempF32 := by cases i <;> rfl
@[simp] theorem started_presence : (started i g).presence = g.presence := by cases i <;> rfl
@[simp] theorem started_samp : (started i g).samp = g.samp := by cases i <;> rfl
@[simp] theorem started_lsb : (started i g).lsb = g.lsb := by cases i <;> rfl
@[simp] theorem started_initialized : (started i g).initialized = g.initialized := by cases i <;> rfl
@[simp] theorem started_overrun : (started i g).overrun = g.overrun := by cases i <;> rfl

end

/-- READ_TEMP alone sets `step` and PRESENCE2 (R94). -/
theorem started_keeps_step {i : Instr} (hi : i ≠ .readTemp) (g : Engine) :
    (started i g).presence2 = g.presence2 ∧ (started i g).step = g.step := by
  cases i with
  | readTemp => exact absurd rfl hi
  | init | resetPresence | writeBit | readBit | writeByte | readByte => exact ⟨rfl, rfl⟩

/-- The byte commands alone set the shift register and its count (R79, R83). -/
theorem started_keeps_shreg {i : Instr} (hwrite : ∀ n, i ≠ .writeByte n) (hread : i ≠ .readByte) (g : Engine) :
    (started i g).shreg = g.shreg ∧ (started i g).bitn = g.bitn := by
  cases i with
  | writeByte n => exact absurd rfl (hwrite n)
  | readByte => exact absurd rfl hread
  | init | readTemp | resetPresence | writeBit | readBit => exact ⟨rfl, rfl⟩

/-- Settles O10: each of the four things a command can do leaves what the frame names. -/
theorem commandsLeaveTheRestUnchanged : Obligations.CommandsLeaveTheRestUnchanged := by
  unfold Obligations.CommandsLeaveTheRestUnchanged
  intro i s t h
  rw [exec_engine] at h
  obtain rfl := Host.Outcome.next.inj h
  obtain ⟨hbusy, e⟩ | ⟨hidle, rfl, e⟩ | ⟨hidle, -, e⟩ | ⟨⟨hidle, -⟩, hi, e⟩ := execEngine_cases i s.lineReady s.engine
  · simp [e, hbusy, markOverrun]
  · simp [e, hidle]
  · simp [e, hidle]
  · simpa [e, hidle] using ⟨started_keeps_step (g := s.engine), started_keeps_shreg (g := s.engine)⟩

/-! ### What a step does to the engine, input by input -/

/-- A step changes the engine in four ways: a tick, a write of CMD, a write of STATUS, or `rst`. -/
theorem step_engine_cases {s t : State} (h : step s = .next t) :
    (∃ b, (s.inputs = [] ∨ s.inputs.head? = some (.tick b)) ∧ engineTick b s.engine = .ok t.engine) ∨
    (∃ v, s.inputs.head? = some (.hostWrite .word 0x00 v) ∧ t.engine = acceptEngine v s.lineReady s.engine) ∨
    (∃ v, s.inputs.head? = some (.hostWrite .word 0x04 v) ∧ t.engine = writeStatus v s.engine) ∨
    (s.inputs.head? = some .rst ∧ t.engine = Engine.reset) ∨
    t.engine = s.engine := by
  obtain ⟨hin, g, htick, rfl⟩ | ⟨rest, hinput⟩ := step_cases h
  · exact .inl ⟨_, .inl hin, htick⟩
  obtain ⟨b, g, hin, htick, rfl⟩ | ⟨size, off, v, hin, hwrite⟩ | ⟨size, off, r, -, -, rfl⟩ | ⟨level, -, rfl⟩ | ⟨hin, rfl⟩ :=
    hinput
  · exact .inl ⟨b, .inr (by rw [hin, List.head?_cons]), htick⟩
  · obtain ⟨r, hr, ⟨rfl, rfl⟩ | ⟨rfl, rfl⟩ | ⟨-, -, rfl⟩⟩ := hostWrite_next hwrite
    · obtain ⟨rfl, -, hreg⟩ := hostAccess_ok_iff.mp hr
      obtain rfl := hostReg?_cmd_iff.mp hreg
      exact .inr (.inl ⟨v, by rw [hin, List.head?_cons], rfl⟩)
    · obtain ⟨rfl, -, hreg⟩ := hostAccess_ok_iff.mp hr
      obtain rfl := hostReg?_status_iff.mp hreg
      exact .inr (.inr (.inl ⟨v, by rw [hin, List.head?_cons], rfl⟩))
    · exact .inr (.inr (.inr (.inr rfl)))
  · exact .inr (.inr (.inr (.inr rfl)))
  · exact .inr (.inr (.inr (.inr rfl)))
  · exact .inr (.inr (.inr (.inl ⟨by rw [hin, List.head?_cons], rfl⟩)))

/-! ### The order of the inputs and the time (R9, R41) -/

/-- A write of the window keeps the waiting inputs and the time. -/
theorem hostWrite_keeps_inputs_now {size : AccessSize} {off : Nat} {v : Word} {s t : State}
    (h : hostWrite size off v s = .next t) : t.inputs = s.inputs ∧ t.now = s.now := by
  obtain ⟨r, -, ⟨-, rfl⟩ | ⟨-, rfl⟩ | ⟨-, -, rfl⟩⟩ := hostWrite_next h <;> exact ⟨rfl, rfl⟩

/-- Settles O43, input by input: each takes itself away, and only a tick and `rst` touch the time. -/
theorem stepTakesInputsInOrder : Obligations.StepTakesInputsInOrder := by
  unfold Obligations.StepTakesInputsInOrder
  refine ⟨fun s t h => ?_, fun s hin => by rw [step, hin]⟩
  obtain ⟨hin, g, -, rfl⟩ | ⟨rest, hinput⟩ := step_cases h
  · simp [hin]
  obtain ⟨b, g, hin, -, rfl⟩ | ⟨size, off, v, hin, hwrite⟩ | ⟨size, off, r, hin, -, rfl⟩ | ⟨level, hin, rfl⟩ | ⟨hin, rfl⟩ :=
    hinput
  · simp [hin]
  · obtain ⟨hinputs, hnow⟩ := hostWrite_keeps_inputs_now hwrite
    simp [hin, hinputs, hnow]
  · simp [hin]
  · simp [hin]
  · simp [hin]

/-! ### Ticks through the machine's steps (R66) -/

theorem drawTicks_succ (d : Nat → Bool) (n : Nat) : drawTicks d (n + 1) = drawTicks d n ++ [.tick (d n)] := by
  simp [drawTicks, List.range_succ]

theorem run_one (s : State) : run 1 s = step s := by
  rw [run]
  cases step s <;> rfl

/-- A tick of the engine is a step of the machine that takes the tick's input. -/
theorem step_tick {s : State} {b : Bool} {rest : List Input} {g : Engine} (hin : s.inputs = .tick b :: rest)
    (ht : engineTick b s.engine = .ok g) :
    step s = .next { s with engine := g, now := s.now + 1, inputs := rest } := by
  rw [step_cons hin, applyInput, tick_next_iff]
  exact ⟨g, ht, rfl⟩

/-- A run of ticks without a fault had none before its last tick. -/
theorem tickRun_succ_ok {d : Nat → Bool} {n : Nat} {g k : Engine} (h : tickRun d (n + 1) g = .ok k) :
    ∃ g', tickRun d n g = .ok g' ∧ engineTick (d n) g' = .ok k := by
  rw [tickRun] at h
  cases hn : tickRun d n g with
  | ok g' => rw [hn] at h; exact ⟨g', rfl, h⟩
  | error f => rw [hn] at h; cases h

/-- A run of the machine continued from where its first part ended. -/
theorem run_then {m : Nat} {s t : State} (h : run m s = .next t) (n : Nat) : run (m + n) s = run n t := by
  rw [run_add, h]

/-- Settles O44, by induction on the ticks: the last tick is one more step. -/
theorem ticksThroughStepsAreTheEngines : Obligations.TicksThroughStepsAreTheEngines := by
  unfold Obligations.TicksThroughStepsAreTheEngines
  intro d n
  induction n with
  | zero =>
    intro s rest g h
    obtain rfl := Except.ok.inj h
    rfl
  | succ n ih =>
    intro s rest g h
    obtain ⟨g', hn, ht⟩ := tickRun_succ_ok h
    rw [drawTicks_succ, List.append_assoc, List.singleton_append, run_then (ih s (.tick (d n) :: rest) g' hn), run_one]
    exact step_tick rfl ht

/-! ### The loopback (R87) -/

/-- The step of a command's mnemonic is the command (R50). -/
theorem step_owCommand {s : State} {i : Instr} {rest : List Input} (hin : s.inputs = owCommand i :: rest) :
    step s = .next { s with inputs := rest, engine := execEngine i s.lineReady s.engine } := by
  rw [step_cmd hin (decode_eq_ok_iff.mpr rfl), exec_engine]

/-- The steps of a command that starts and of the ticks to its end. -/
theorem run_command {s : State} {i : Instr} {d : Nat → Bool} {n : Nat} {rest : List Input} {g : Engine}
    (hi : i ≠ .init) (hready : s.engine.ready) (hin : s.inputs = owCommand i :: drawTicks d n ++ rest)
    (hrun : tickRun d n (started i s.engine) = .ok g) :
    run (n + 1) s = .next { s with engine := g, now := s.now + n, inputs := rest } := by
  rw [Nat.add_comm, run_then ((run_one s).trans (step_owCommand hin)), execEngine_eq_started hi _ hready]
  exact ticksThroughStepsAreTheEngines d n { s with engine := started i s.engine } rest g hrun

theorem sampledByte_getLsbD (x : Byte) : sampledByte (fun i => x.getLsbD i) = x := by
  revert x; decide

/-- The samples of a byte are those of its eight slots. -/
theorem sampledByte_congr {s s' : Nat → Bool} (h : ∀ i < 8, s i = s' i) : sampledByte s = sampledByte s' := by
  unfold sampledByte
  congr 2
  exact List.map_congr_left fun i hi => by rw [h i (List.mem_range.mp hi)]

/-- The engine that has written a byte to its end (R82). -/
def afterWriteByteCmd (g : Engine) : Engine := { g.completed .ok with shreg := 0x00#8, bitn := 8 }

theorem afterWriteByteCmd_ready {g : Engine} (h : g.ready) : (afterWriteByteCmd g).ready := ⟨rfl, h.2⟩

/-- Settles O21: WRITE_BYTE leaves the engine READY, READ_BYTE samples the bits of x, and they are x. -/
theorem loopbackReturnsTheByteWritten : Obligations.LoopbackReturnsTheByteWritten := by
  unfold Obligations.LoopbackReturnsTheByteWritten
  intro s x d d' hready hloop
  let inputs' := owCommand .readByte :: drawTicks d' 560
  let s' : State := { s with engine := afterWriteByteCmd s.engine, now := s.now + 560, inputs := inputs' }
  have hready' : s'.engine.ready := afterWriteByteCmd_ready hready
  obtain ⟨-, hwriteByte⟩ := writeByteSendsBitsInOrder
  obtain ⟨-, -, hwrite⟩ := hwriteByte s x d hready
  obtain ⟨-, hreadByte⟩ := readByteReturnsSampledBits
  obtain ⟨-, -, hread⟩ := hreadByte s' d' hready'
  have hfirst : run 561 (s.withInputs (owCommand (.writeByte x) :: drawTicks d 560 ++ inputs')) = .next s' :=
    run_command (i := .writeByte x) (n := 560) nofun hready rfl hwrite
  have hsecond :=
    run_command (i := .readByte) (n := 560) (s := s') (rest := []) nofun hready' (by rw [List.append_nil]) hread
  have hbyte : sampledByte (fun i => !d' (70 * i + 15)) = x :=
    (sampledByte_congr fun i hi => by rw [hloop i hi, Bool.not_not]).trans (sampledByte_getLsbD x)
  exact ⟨_, (run_then hfirst 561).trans hsecond, congrArg (BitVec.setWidth 32) hbyte, rfl, rfl, rfl⟩

end Sys2Proof.Machine

namespace Sys2Proof.Machine

/-! ### What the end of a slot can do, said once (R68, R80, R84, R95) -/

/-- The steps of READ_TEMP that write a byte, and the byte (R95). -/
def SeqStep.byteSent : SeqStep → Option Byte
  | .convSkip | .rsSkip => some cmdSkipRom
  | .convCmd => some cmdConvertT
  | .rsCmd => some cmdReadScratchpad
  | .reset1 | .wait750ms | .reset2 | .rsLsb | .rsMsb => none

/-- The steps of READ_TEMP that read a byte (R95). -/
def SeqStep.readsByte : SeqStep → Bool
  | .rsLsb | .rsMsb => true
  | .reset1 | .convSkip | .convCmd | .wait750ms | .reset2 | .rsSkip | .rsCmd => false

/-- The engine is writing a byte, for WRITE_BYTE or inside READ_TEMP. -/
abbrev Engine.sends (g : Engine) : Prop := g.op = .wbyte ∨ (g.op = .readt ∧ g.step.byteSent.isSome)

/-- The engine is reading a byte, for READ_BYTE or inside READ_TEMP. -/
abbrev Engine.receives (g : Engine) : Prop := g.op = .rbyte ∨ (g.op = .readt ∧ g.step.readsByte = true)

/-- The next bit of a byte that is being written (R80). -/
def nextWriteSlot (g : Engine) : Engine := startSlot (bitSlot ((g.shreg >>> 1).getLsbD 0)) (shiftOut g)

/-- The next bit of a byte that is being read (R84). -/
def nextReadSlot (g : Engine) : Engine := startSlot .rd (shiftIn g)

/-- READ_TEMP at the end of a step, when it does not leave at RESET_1 (R95): the next step begins, and after the last the
command ends with its reading. -/
def seqAdvance (g : Engine) : Engine :=
  match g.step with
  | .reset1 => startWriteByte cmdSkipRom { g with presence := true, step := .convSkip }
  | .convSkip => startWriteByte cmdConvertT { g with step := .convCmd }
  | .convCmd => startSlot .cwait { g with step := .wait750ms }
  | .wait750ms => startSlot .rst { g with step := .reset2 }
  | .reset2 => startWriteByte cmdSkipRom { g with presence2 := !g.samp, step := .rsSkip }
  | .rsSkip => startWriteByte cmdReadScratchpad { g with step := .rsCmd }
  | .rsCmd => startReadByte { g with step := .rsLsb }
  | .rsLsb => startReadByte { g with lsb := g.shreg, step := .rsMsb }
  | .rsMsb => finish .ok (decodeTemperature g.lsb g.shreg g)

/-- READ_TEMP at the end of a first reset slot that found no device (R97). -/
def seqAbsent (g : Engine) : Engine := finish .noPresence { g with presence := false, tempF32 := sentinelF32 }

/-- What the end of a slot makes of the engine whose slot it was. A step of READ_TEMP is over at the end of its one slot, or
of its eighth with the shift register and its count moved on. -/
inductive SlotEnd (g : Engine) : Engine → Prop where
  | nextWrite (h : g.sends) (hmore : g.bitn ≠ 7) : SlotEnd g (nextWriteSlot g)
  | nextRead (h : g.receives) (hmore : g.bitn ≠ 7) : SlotEnd g (nextReadSlot g)
  | advance (x : Byte) (n : Nat) (hop : g.op = .readt) (hstep : g.step ≠ .rsMsb) (hn : n = g.bitn ∨ n = 8)
      (hslot : ¬ (g.sends ∨ g.receives) ∨ g.bitn = 7) : SlotEnd g (seqAdvance { g with shreg := x, bitn := n })
  | absent (hop : g.op = .readt) (hstep : g.step = .reset1) : SlotEnd g (seqAbsent g)
  | reading (hop : g.op = .readt) (hstep : g.step = .rsMsb) (hlast : g.bitn = 7) : SlotEnd g (seqAdvance (shiftIn g))
  | resetPresence (hop : g.op = .rstp) : SlotEnd g (resetPresenceSlotDone g)
  | writeBit (hop : g.op = .wbit) : SlotEnd g (finish .ok g)
  | readBit (hop : g.op = .rbit) : SlotEnd g (readBitSlotDone g)
  | writeByte (hop : g.op = .wbyte) (hlast : g.bitn = 7) : SlotEnd g (finish .ok (shiftOut g))
  | readByte (hop : g.op = .rbyte) (hlast : g.bitn = 7) : SlotEnd g (finishReadByte (shiftIn g))

theorem slotDone_of_readt {g : Engine} (h : g.op = .readt) : slotDone g = .ok (seqSlotDone g) := by
  rw [slotDone, h]

/-- In a step that writes a byte, the byte goes on or the sequence does. -/
theorem seqSlotDone_of_byteSent {g : Engine} (h : g.step.byteSent.isSome) :
    seqSlotDone g = afterWriteByte seqAdvance g := by
  rw [afterWriteByte_eq_ite, seqSlotDone, seqAdvance, shiftOut_step]
  cases hstep : g.step with
  | convSkip | convCmd | rsSkip | rsCmd => exact afterWriteByte_eq_ite _ g
  | reset1 | wait750ms | reset2 | rsLsb | rsMsb => simp [hstep, SeqStep.byteSent] at h

/-- In a step that reads a byte, the byte goes on or the sequence does. -/
theorem seqSlotDone_of_readsByte {g : Engine} (h : g.step.readsByte = true) :
    seqSlotDone g = afterReadByte seqAdvance g := by
  rw [afterReadByte_eq_ite, seqSlotDone, seqAdvance, shiftIn_step]
  cases hstep : g.step with
  | rsLsb | rsMsb => exact afterReadByte_eq_ite _ g
  | reset1 | convSkip | convCmd | wait750ms | reset2 | rsSkip | rsCmd => simp [hstep, SeqStep.readsByte] at h

/-- At the end of RESET_1 the sample decides (R95). -/
theorem seqSlotDone_of_reset1 {g : Engine} (h : g.step = .reset1) :
    seqSlotDone g = if g.samp then seqAbsent g else seqAdvance g := by
  rw [seqSlotDone, seqAdvance, h]
  cases hs : g.samp <;> simp [seqAbsent, hs, h]

/-- The one slot of the conversion wait and of the second reset is followed by the next step (R95). -/
theorem seqSlotDone_of_oneSlot {g : Engine} (h : g.step = .wait750ms ∨ g.step = .reset2) :
    seqSlotDone g = seqAdvance g := by
  rw [seqSlotDone, seqAdvance]
  obtain h | h := h <;> rw [h]

/-- A step of one slot sends and receives no byte. -/
theorem not_sends_or_receives {g : Engine} (hop : g.op = .readt)
    (h : g.step = .reset1 ∨ g.step = .wait750ms ∨ g.step = .reset2) : ¬ (g.sends ∨ g.receives) := by
  obtain h | h | h := h <;> simp [hop, h, SeqStep.byteSent, SeqStep.readsByte]

/-- READ_TEMP's slots, step by step. -/
theorem slotEnd_seqSlotDone {g : Engine} (hop : g.op = .readt) : SlotEnd g (seqSlotDone g) := by
  cases hstep : g.step with
  | reset1 =>
    rw [seqSlotDone_of_reset1 hstep]
    split
    · exact .absent hop hstep
    · exact .advance g.shreg g.bitn hop (by simp [hstep]) (.inl rfl) (.inl (not_sends_or_receives hop (.inl hstep)))
  | wait750ms | reset2 =>
    rw [seqSlotDone_of_oneSlot (by simp [hstep])]
    exact .advance g.shreg g.bitn hop (by simp [hstep]) (.inl rfl) (.inl (not_sends_or_receives hop (by simp [hstep])))
  | convSkip | convCmd | rsSkip | rsCmd =>
    have hsent : g.step.byteSent.isSome := by rw [hstep]; rfl
    rw [seqSlotDone_of_byteSent hsent]
    obtain ⟨hlast, e⟩ | ⟨hmore, e⟩ := afterWriteByte_cases seqAdvance g
    · rw [e]
      exact .advance _ _ hop (by simp [hstep]) (.inr (by simp [hlast])) (.inr hlast)
    · rw [e]
      exact .nextWrite (.inr ⟨hop, hsent⟩) hmore
  | rsLsb | rsMsb =>
    have hread : g.step.readsByte = true := by rw [hstep]; rfl
    rw [seqSlotDone_of_readsByte hread]
    obtain ⟨hlast, e⟩ | ⟨hmore, e⟩ := afterReadByte_cases seqAdvance g
    · rw [e]
      by_cases hmsb : g.step = .rsMsb
      · exact .reading hop hmsb hlast
      · exact .advance _ _ hop hmsb (.inr (by simp [hlast])) (.inr hlast)
    · rw [e]
      exact .nextRead (.inr ⟨hop, hread⟩) hmore

/-- Everything the end of a slot can do, command by command. -/
theorem slotEnd_of_slotDone {g h : Engine} (hd : slotDone g = .ok h) : SlotEnd g h := by
  cases hop : g.op with
  | none => simp [slotDone, hop] at hd
  | rstp =>
    simp only [slotDone, hop, Except.ok.injEq] at hd
    exact hd ▸ .resetPresence hop
  | wbit =>
    simp only [slotDone, hop, Except.ok.injEq] at hd
    exact hd ▸ .writeBit hop
  | rbit =>
    simp only [slotDone, hop, Except.ok.injEq] at hd
    exact hd ▸ .readBit hop
  | wbyte =>
    rw [slotDone_of_wbyte hop, Except.ok.injEq] at hd
    obtain ⟨hlast, e⟩ | ⟨hmore, e⟩ := afterWriteByte_cases (finish .ok) g
    · exact hd ▸ e ▸ .writeByte hop hlast
    · exact hd ▸ e ▸ .nextWrite (.inl hop) hmore
  | rbyte =>
    rw [slotDone_of_rbyte hop, Except.ok.injEq] at hd
    obtain ⟨hlast, e⟩ | ⟨hmore, e⟩ := afterReadByte_cases finishReadByte g
    · exact hd ▸ e ▸ .readByte hop hlast
    · exact hd ▸ e ▸ .nextRead (.inl hop) hmore
  | readt =>
    rw [slotDone_of_readt hop, Except.ok.injEq] at hd
    exact hd ▸ slotEnd_seqSlotDone hop

end Sys2Proof.Machine

namespace Sys2Proof.Machine

/-! ### A slot's end goes on with the command or ends it -/

/-- The command goes on: its next slot begins (R75), and neither the result registers nor what says that it runs change. -/
abbrev Engine.goesOn (g h : Engine) : Prop :=
  (h.busy = g.busy ∧ h.op = g.op ∧ h.initialized = g.initialized) ∧ (h.slot ≠ .none ∧ h.e = 0) ∧
    h.result = g.result ∧ h.done = g.done ∧ h.rxdata = g.rxdata ∧ h.tempRaw = g.tempRaw ∧ h.tempF32 = g.tempF32

/-- A command has ended in a tick (R93): OWT is at rest, DONE is 1 and RESULT is one of the two codes a started command ends
with (R109). -/
abbrev Engine.ended (h : Engine) : Prop :=
  (h.busy = false ∧ h.op = .none) ∧ (h.slot = .none ∧ h.e = 0) ∧ h.done = true ∧
    (h.result = .ok ∨ h.result = .noPresence)

theorem nextWriteSlot_goesOn (g : Engine) : g.goesOn (nextWriteSlot g) := by
  simp [Engine.goesOn, nextWriteSlot]

theorem nextReadSlot_goesOn (g : Engine) : g.goesOn (nextReadSlot g) := by
  simp [Engine.goesOn, nextReadSlot]

/-- Up to the last step READ_TEMP goes on (R95). -/
theorem seqAdvance_goesOn {g : Engine} (h : g.step ≠ .rsMsb) : g.goesOn (seqAdvance g) := by
  unfold seqAdvance
  cases hstep : g.step with
  | rsMsb => exact absurd hstep h
  | reset1 | convSkip | convCmd | wait750ms | reset2 | rsSkip | rsCmd | rsLsb => simp [Engine.goesOn]

theorem seqAdvance_of_rsMsb {g : Engine} (h : g.step = .rsMsb) :
    seqAdvance g = finish .ok (decodeTemperature g.lsb g.shreg g) := by
  rw [seqAdvance, h]

theorem SlotEnd.goesOn_or_ended {g h : Engine} (hend : SlotEnd g h) : g.goesOn h ∨ h.ended := by
  cases hend with
  | nextWrite => exact .inl (nextWriteSlot_goesOn g)
  | nextRead => exact .inl (nextReadSlot_goesOn g)
  | advance x n hop hstep => exact .inl (seqAdvance_goesOn (g := { g with shreg := x, bitn := n }) hstep)
  | absent => exact .inr (by simp [Engine.ended, seqAbsent])
  | reading hop hstep => exact .inr (by simp [Engine.ended, seqAdvance_of_rsMsb (g := shiftIn g) hstep])
  | resetPresence => exact .inr (by simp [Engine.ended, resetPresenceSlotDone])
  | writeBit => exact .inr (by simp [Engine.ended])
  | readBit => exact .inr (by simp [Engine.ended, readBitSlotDone])
  | writeByte => exact .inr (by simp [Engine.ended])
  | readByte => exact .inr (by simp [Engine.ended, finishReadByte])

/-! ### What a tick can do, said once (R66) -/

/-- A sample changes `samp` alone. -/
theorem exists_takeSample_eq (b : Bool) (g : Engine) : ∃ x, takeSample b g = { g with samp := x } := by
  unfold takeSample
  split
  · exact ⟨_, rfl⟩
  · exact ⟨g.samp, rfl⟩

/-- Everything a tick can do: nothing, the count of a tick inside a slot, or a slot's end. -/
theorem engineTick_slotEnd {b : Bool} {g h : Engine} (ht : engineTick b g = .ok h) :
    (g.slot = .none ∧ h = g) ∨
    (g.slot ≠ .none ∧ g.e + 1 ≠ len g.slot ∧ ∃ x, h = { g with samp := x, e := g.e + 1 }) ∨
    (g.slot ≠ .none ∧ g.e + 1 = len g.slot ∧ ∃ x, SlotEnd { g with samp := x, e := g.e + 1 } h) := by
  obtain ⟨x, hx⟩ := exists_takeSample_eq b g
  obtain hidle | ⟨hs, he, rfl⟩ | ⟨hs, he, hd⟩ := engineTick_cases ht
  · exact .inl hidle
  · exact .inr (.inl ⟨hs, he, x, by rw [hx]⟩)
  · rw [hx] at hd
    exact .inr (.inr ⟨hs, he, x, slotEnd_of_slotDone hd⟩)

/-- A tick leaves what is running as it is, or ends the command. -/
theorem engineTick_keeps_or_ended {b : Bool} {g h : Engine} (ht : engineTick b g = .ok h) :
    ((h.busy = g.busy ∧ h.op = g.op ∧ h.initialized = g.initialized) ∧
      h.result = g.result ∧ h.done = g.done ∧ h.rxdata = g.rxdata ∧ h.tempRaw = g.tempRaw ∧ h.tempF32 = g.tempF32) ∨
    h.ended := by
  obtain ⟨-, rfl⟩ | ⟨-, -, x, rfl⟩ | ⟨-, -, x, hend⟩ := engineTick_slotEnd ht
  · exact .inl ⟨⟨rfl, rfl, rfl⟩, rfl, rfl, rfl, rfl, rfl⟩
  · exact .inl ⟨⟨rfl, rfl, rfl⟩, rfl, rfl, rfl, rfl, rfl⟩
  · exact hend.goesOn_or_ended.imp_left fun ⟨hrun, _, hregs⟩ => ⟨hrun, hregs⟩

/-! ### The invariant: what a running engine and an engine at rest have to show -/

/-- An engine that has just begun a slot meets the invariant if what varies from slot to slot does. -/
theorem inv_of_justStarted {g : Engine} (h : g.justStarted) (hinit : g.initialized = true) (hbitn : g.bitn ≤ 8)
    (hslot : g.slotFits = true) (hpresence : g.presenceFits) (hdata : g.dataFits) : g.Inv := by
  obtain ⟨hbusy, hdone, hresult, hop, hs, he⟩ := h
  have hlen := len_pos hs
  exact ⟨hslot, by simp [Engine.busyFits, hop, hbusy], by simp [Engine.countersFit, hs, he, hlen, hbitn],
    by simp [Engine.resultFits, hresult, hdone, hinit], by simp [Engine.errorFits, hresult], hpresence, hdata⟩

/-- An engine whose command has ended meets the invariant if its data registers do, and its error code, if it is one. -/
theorem inv_finish {g : Engine} {res : ResultCode} (hres : res = .ok ∨ res = .noPresence) (hbitn : g.bitn ≤ 8)
    (herror : res = .noPresence → g.presence = false ∧ g.tempF32 = sentinelF32) (hdata : g.dataFits) :
    (finish res g).Inv := by
  refine ⟨rfl, by simp [Engine.busyFits], by simp [Engine.countersFit, hbitn], ?_, ?_, by simp [Engine.presenceFits], hdata⟩
  · obtain rfl | rfl := hres <;> simp [Engine.resultFits]
  · obtain rfl | rfl := hres
    · simp [Engine.errorFits]
    · simpa [Engine.errorFits] using herror rfl

/-- While a byte is written the slot fits exactly if it sends the bottom bit of `shreg`. -/
theorem slotFits_of_sends {g : Engine} (h : g.sends) : g.slotFits = true ↔ g.inWriteByte := by
  obtain hop | ⟨hop, hstep⟩ := h
  · simp [Engine.slotFits, hop]
  · cases hs : g.step with
    | convSkip | convCmd | rsSkip | rsCmd => simp [Engine.slotFits, hop, hs]
    | reset1 | wait750ms | reset2 | rsLsb | rsMsb => simp [hs, SeqStep.byteSent] at hstep

/-- While a byte is read the slot fits exactly if it is a read slot. -/
theorem slotFits_of_receives {g : Engine} (h : g.receives) : g.slotFits = true ↔ g.inReadByte := by
  obtain hop | ⟨hop, hstep⟩ := h
  · simp [Engine.slotFits, hop]
  · cases hs : g.step with
    | rsLsb | rsMsb => simp [Engine.slotFits, hop, hs]
    | reset1 | convSkip | convCmd | wait750ms | reset2 | rsSkip | rsCmd => simp [hs, SeqStep.readsByte] at hstep

/-- The next step of READ_TEMP begins with the slot that fits it. -/
theorem slotFits_seqAdvance {g : Engine} (hop : g.op = .readt) (h : g.step ≠ .rsMsb) : (seqAdvance g).slotFits = true := by
  unfold seqAdvance
  cases hstep : g.step with
  | rsMsb => exact absurd hstep h
  | reset1 | convSkip | convCmd | wait750ms | reset2 | rsSkip | rsCmd | rsLsb => simp [Engine.slotFits, hop]

/-- READ_TEMP passes RESET_1 with PRESENCE 1, and no step before RESET_2's end sets PRESENCE2. -/
theorem presenceFits_seqAdvance {g : Engine} (hop : g.op = .readt) (h : g.step ≠ .rsMsb) (hg : g.presenceFits) :
    (seqAdvance g).presenceFits := by
  obtain ⟨hpast, hearly⟩ := hg
  unfold seqAdvance
  cases hstep : g.step with
  | rsMsb => exact absurd hstep h
  | reset1 | convSkip | convCmd | wait750ms | reset2 | rsSkip | rsCmd | rsLsb => simp_all [Engine.presenceFits]

theorem bitn_seqAdvance_le {g : Engine} (h : g.bitn ≤ 8) : (seqAdvance g).bitn ≤ 8 := by
  unfold seqAdvance
  cases g.step <;> simp [h]

/-! ### The data registers' formats -/

/-- A byte in RXDATA leaves bits 31:8 clear (R26). -/
theorem dataFits_rxdata {g : Engine} (hg : g.dataFits) (x : Byte) : { g with rxdata := x.setWidth 32 }.dataFits := by
  obtain ⟨-, htemp⟩ := hg
  refine ⟨?_, htemp⟩
  simp only [BitVec.setWidth_setWidth_of_le, Nat.reduceLeDiff, BitVec.setWidth_eq]

theorem dataFits_rxdata_ofBool {g : Engine} (hg : g.dataFits) (b : Bool) :
    { g with rxdata := (BitVec.ofBool b).setWidth 32 }.dataFits := by
  cases b
  · exact dataFits_rxdata hg 0x00#8
  · exact dataFits_rxdata hg 0x01#8

/-- A reading is the encoding of what it puts into TEMP_RAW (R104). -/
theorem tempF32_decodeTemperature (l m : Byte) (g : Engine) :
    (decodeTemperature l m g).tempF32 = f32 (decodeTemperature l m g).tempRaw.toInt := by
  simp [BitVec.toInt_signExtend_of_le]

/-- The low half of a sign-extended word is the word. -/
theorem setWidth_signExtend_word (x : BitVec 16) : (x.signExtend 32).setWidth 16 = x := by
  refine BitVec.eq_of_getLsbD_eq fun i hi => ?_
  have h32 : i < 32 := by omega
  simp [BitVec.getElem_signExtend, hi, h32]

/-- A reading fits the formats of TEMP_RAW and TEMP_F32 (R27, R28). -/
theorem dataFits_decodeTemperature {g : Engine} (hg : g.dataFits) (l m : Byte) : (decodeTemperature l m g).dataFits := by
  obtain ⟨hrx, -⟩ := hg
  exact ⟨hrx, by simp [setWidth_signExtend_word], .inl (tempF32_decodeTemperature l m g)⟩

end Sys2Proof.Machine

namespace Sys2Proof.Machine

/-! ### Every way the engine changes keeps the invariant -/

/-- What the invariant says of an engine that is running a command, whatever tick of its slot it is in. -/
abbrev Engine.midCommand (g : Engine) : Prop :=
  (g.busy = true ∧ g.op ≠ .none ∧ g.initialized = true) ∧ (g.result = .none ∧ g.done = false) ∧
    g.bitn ≤ 8 ∧ g.slotFits = true ∧ g.presenceFits ∧ g.dataFits

/-- No command, no slot (R18). -/
theorem slot_eq_none_of_op_eq_none {g : Engine} (hslot : g.slotFits = true) (hop : g.op = .none) : g.slot = .none := by
  simpa [Engine.slotFits, hop] using hslot

/-- A command has a slot (R18). -/
theorem slot_ne_none_of_op_ne_none {g : Engine} (hslot : g.slotFits = true) (hop : g.op ≠ .none) : g.slot ≠ .none := by
  by_cases hs : g.sends
  · rw [((slotFits_of_sends hs).mp hslot).1]
    exact bitSlot_ne_none _
  by_cases hr : g.receives
  · simp [((slotFits_of_receives hr).mp hslot).1]
  intro hnone
  cases h : g.op with
  | none => exact hop h
  | wbyte => exact hs (.inl h)
  | rbyte => exact hr (.inl h)
  | rstp | wbit | rbit => simp [Engine.slotFits, h, hnone] at hslot
  | readt =>
    cases hstep : g.step with
    | convSkip | convCmd | rsSkip | rsCmd => exact hs (.inr ⟨h, by rw [hstep]; rfl⟩)
    | rsLsb | rsMsb => exact hr (.inr ⟨h, by rw [hstep]; rfl⟩)
    | reset1 | wait750ms | reset2 => simp [Engine.slotFits, h, hstep, hnone] at hslot

theorem midCommand_of_inv {g : Engine} (hg : g.Inv) (hop : g.op ≠ .none) : g.midCommand := by
  obtain ⟨hslot, hbusy, ⟨-, -, hbitn⟩, ⟨hresult, -⟩, -, hpresence, hdata⟩ := hg
  have hrun : g.busy = true := by simpa using mt hbusy.mpr hop
  obtain ⟨hres, hdone, hinit⟩ := hresult hrun
  exact ⟨⟨hrun, hop, hinit⟩, ⟨hres, hdone⟩, hbitn, hslot, hpresence, hdata⟩

/-- A slot that begins where a command goes on meets the invariant, if the slot, its byte count and the presence flags do. -/
theorem inv_of_goesOn {g h : Engine} (hg : g.midCommand) (hon : g.goesOn h) (hbitn : h.bitn ≤ 8)
    (hslot : h.slotFits = true) (hpresence : h.presenceFits) : h.Inv := by
  obtain ⟨⟨hbusy, hop, hinit⟩, ⟨hresult, hdone⟩, -, -, -, hdata⟩ := hg
  obtain ⟨⟨ebusy, eop, einit⟩, ⟨hs, he⟩, eresult, edone, erx, eraw, ef32⟩ := hon
  refine inv_of_justStarted ⟨ebusy.trans hbusy, edone.trans hdone, eresult.trans hresult, by rwa [eop], hs, he⟩
    (einit.trans hinit) hbitn hslot hpresence ?_
  rwa [Engine.dataFits, erx, eraw, ef32]

/-- The end of a slot keeps the invariant, in each of the things it can do. -/
theorem inv_of_slotEnd {g h : Engine} (hg : g.midCommand) (hend : SlotEnd g h) : h.Inv := by
  obtain ⟨-, -, hbitn, hslot, hpresence, hdata⟩ := id hg
  cases hend with
  | nextWrite hs hmore =>
    obtain ⟨-, hlt⟩ := (slotFits_of_sends hs).mp hslot
    have hfits : (nextWriteSlot g).slotFits = true := (slotFits_of_sends (g := nextWriteSlot g) hs).mpr
      ⟨rfl, show g.bitn + 1 < 8 by omega⟩
    exact inv_of_goesOn hg (nextWriteSlot_goesOn g) (show g.bitn + 1 ≤ 8 by omega) hfits hpresence
  | nextRead hr hmore =>
    obtain ⟨-, hlt⟩ := (slotFits_of_receives hr).mp hslot
    have hfits : (nextReadSlot g).slotFits = true := (slotFits_of_receives (g := nextReadSlot g) hr).mpr
      ⟨rfl, show g.bitn + 1 < 8 by omega⟩
    exact inv_of_goesOn hg (nextReadSlot_goesOn g) (show g.bitn + 1 ≤ 8 by omega) hfits hpresence
  | advance x n hop hstep hn =>
    let y : Engine := { g with shreg := x, bitn := n }
    exact inv_of_goesOn hg (seqAdvance_goesOn (g := y) hstep) (bitn_seqAdvance_le (g := y) (show n ≤ 8 by omega))
      (slotFits_seqAdvance (g := y) hop hstep) (presenceFits_seqAdvance (g := y) hop hstep hpresence)
  | absent =>
    obtain ⟨hrx, hraw, -⟩ := hdata
    exact inv_finish (.inr rfl) hbitn (fun _ => ⟨rfl, rfl⟩) ⟨hrx, hraw, .inr rfl⟩
  | reading hop hstep hlast =>
    rw [seqAdvance_of_rsMsb (g := shiftIn g) hstep]
    exact inv_finish (.inl rfl) (show g.bitn + 1 ≤ 8 by omega) nofun (dataFits_decodeTemperature (g := shiftIn g) hdata _ _)
  | resetPresence => exact inv_finish (.inl rfl) hbitn nofun hdata
  | writeBit => exact inv_finish (.inl rfl) hbitn nofun hdata
  | readBit => exact inv_finish (.inl rfl) hbitn nofun (dataFits_rxdata_ofBool hdata _)
  | writeByte hop hlast => exact inv_finish (.inl rfl) (show g.bitn + 1 ≤ 8 by omega) nofun hdata
  | readByte hop hlast =>
    exact inv_finish (.inl rfl) (show g.bitn + 1 ≤ 8 by omega) nofun (dataFits_rxdata (g := shiftIn g) hdata _)

theorem op_ne_none_of_slot_ne_none {g : Engine} (hg : g.Inv) (hs : g.slot ≠ .none) : g.op ≠ .none :=
  fun hop => hs (slot_eq_none_of_op_eq_none hg.1 hop)

theorem engineTick_keeps_inv {b : Bool} {g h : Engine} (hg : g.Inv) (ht : engineTick b g = .ok h) : h.Inv := by
  obtain ⟨-, rfl⟩ | ⟨hs, he, x, rfl⟩ | ⟨hs, -, x, hend⟩ := engineTick_slotEnd ht
  · exact hg
  · obtain ⟨hslot, hbusy, ⟨hcount, -, hbitn⟩, hrest⟩ := hg
    have hlt := hcount hs
    exact ⟨hslot, hbusy, ⟨fun _ => show g.e + 1 < len g.slot by omega, fun h => absurd h hs, hbitn⟩, hrest⟩
  · have hmid := midCommand_of_inv hg (op_ne_none_of_slot_ne_none hg hs)
    exact inv_of_slotEnd (g := { g with samp := x, e := g.e + 1 }) hmid hend

/-- A start keeps the invariant, command by command. -/
theorem started_keeps_inv {i : Instr} (hi : i ≠ .init) {g : Engine} (hg : g.Inv) (hready : g.ready) :
    (started i g).Inv := by
  have hjust : (started i g).justStarted := execEngine_eq_started hi true hready ▸ execEngine_of_ready hi true hready
  obtain ⟨-, -, ⟨-, -, hbitn⟩, -, -, -, hdata⟩ := hg
  refine inv_of_justStarted hjust ?_ ?_ ?_ ?_ ?_
  · rw [started_initialized, hready.2]
  · cases i with
    | writeByte | readByte => exact Nat.zero_le 8
    | init | readTemp | resetPresence | writeBit | readBit => exact hbitn
  · cases i with
    | init => exact absurd rfl hi
    | writeBit b => cases b <;> rfl
    | readTemp | resetPresence | readBit | writeByte | readByte =>
      simp [started, Engine.running, Engine.slotFits, Engine.inWriteByte, Engine.inReadByte]
  · cases i with
    | init => exact absurd rfl hi
    | readTemp | resetPresence | writeBit | readBit | writeByte | readByte =>
      simp [started, Engine.running, Engine.presenceFits]
  · rwa [Engine.dataFits, started_rxdata, started_tempRaw, started_tempF32]

/-- A command that ends at its CMD write keeps the invariant: none runs, and its code's rule holds. -/
theorem completeAtOnce_keeps_inv {g : Engine} {res : ResultCode} (hg : g.Inv) (hidle : g.busy = false)
    (hcode : res ≠ .none ∧ res ≠ .noPresence)
    (hinit : res = .notReady ∨ res = .notInitialized → g.initialized = false) : (completeAtOnce res g).Inv := by
  obtain ⟨hslot, hbusy, hcounters, -, -, hpresence, hdata⟩ := hg
  exact ⟨hslot, hbusy, hcounters, by simp [Engine.resultFits, hidle, hcode],
    by simp_all [Engine.errorFits], hpresence, hdata⟩

/-- INITIALIZED is free while no command runs and RESULT is about to be written. -/
theorem takeLineReady_keeps_inv {g : Engine} (hg : g.Inv) (hidle : g.busy = false) (l : Bool) :
    (takeLineReady l g).Inv := by
  obtain ⟨hslot, hbusy, hcounters, -, -, hpresence, hdata⟩ := hg
  exact ⟨hslot, hbusy, hcounters, by cases l <;> simp [Engine.resultFits, hidle],
    by cases l <;> simp [Engine.errorFits], hpresence, hdata⟩

theorem acceptEngine_keeps_inv {g : Engine} (hg : g.Inv) (v : Word) (l : Bool) : (acceptEngine v l g).Inv := by
  obtain ⟨-, e⟩ | ⟨hidle, -, e⟩ | ⟨hidle, hinit, e⟩ | ⟨hidle, e⟩ | ⟨hready, i, hi, e⟩ := acceptEngine_cases v l g
  · rw [e]; exact hg
  · rw [e]; exact takeLineReady_keeps_inv hg hidle l
  · rw [e]; exact completeAtOnce_keeps_inv hg hidle (by decide) (fun _ => hinit)
  · rw [e]; exact completeAtOnce_keeps_inv hg hidle (by decide) (fun h => absurd h (by decide))
  · rw [e]; exact started_keeps_inv hi hg hready

theorem writeStatus_keeps_inv {g : Engine} (hg : g.Inv) (v : Word) : (writeStatus v g).Inv := by
  obtain ⟨hslot, hbusy, hcounters, ⟨hrun, hdone⟩, hrest⟩ := hg
  refine ⟨hslot, hbusy, hcounters, ⟨fun h => ?_, fun h => hdone (by simp_all)⟩, hrest⟩
  obtain ⟨hresult, hd, hinit⟩ := hrun h
  exact ⟨hresult, by simp [hd], hinit⟩

/-- Settles O45: the reset values, clause by clause. -/
theorem invHoldsAfterReset : Obligations.InvHoldsAfterReset := by
  unfold Obligations.InvHoldsAfterReset
  exact ⟨by decide, by decide, by decide, by decide, by decide, by decide, by decide⟩

/-- Settles O46: each way a step changes the engine keeps the invariant. -/
theorem everyStepKeepsInv : Obligations.EveryStepKeepsInv := by
  unfold Obligations.EveryStepKeepsInv
  intro s t hs h
  obtain ⟨b, -, htick⟩ | ⟨v, -, e⟩ | ⟨v, -, e⟩ | ⟨-, e⟩ | e := step_engine_cases h
  · exact engineTick_keeps_inv hs htick
  · rw [State.Inv, e]; exact acceptEngine_keeps_inv hs v s.lineReady
  · rw [State.Inv, e]; exact writeStatus_keeps_inv hs v
  · rw [State.Inv, e]; exact invHoldsAfterReset
  · rw [State.Inv, e]; exact hs

end Sys2Proof.Machine

namespace Sys2Proof.Machine

/-! ### Which draws a run looks at (R67) -/

/-- Away from the sample instant a tick does the same for every draw. -/
theorem engineTick_congr {b b' : Bool} {g : Engine} (h : sampleAt g.slot = some g.e → b = b') :
    engineTick b g = engineTick b' g := by
  by_cases hsample : sampleAt g.slot = some g.e
  · rw [h hsample]
  · have htake (x : Bool) : takeSample x g = g := if_neg hsample
    rw [engineTick, engineTick, htake, htake]

/-- Settles O14, by induction on the ticks: the runs agree up to the last tick, which looks at its draw only to sample. -/
theorem drawsMatterOnlyAtSamples : Obligations.DrawsMatterOnlyAtSamples := by
  unfold Obligations.DrawsMatterOnlyAtSamples
  intro d d' n g hagree
  induction n with
  | zero => rfl
  | succ n ih =>
    have hn : tickRun d n g = tickRun d' n g := ih fun j hj => hagree j (by omega)
    rw [tickRun, tickRun, ← hn]
    cases hrun : tickRun d n g with
    | ok h => exact engineTick_congr (hagree n (by omega) h hrun)
    | error f => rfl

/-! ### What follows a slot (R75, R95) -/

/-- Settles O15: the end of a slot begins the next or ends the command, and until then the command runs. -/
theorem slotsFollowWithoutGap : Obligations.SlotsFollowWithoutGap := by
  unfold Obligations.SlotsFollowWithoutGap
  intro b g h hg hs he ht
  obtain ⟨⟨hbusy, -⟩, -⟩ := midCommand_of_inv hg (op_ne_none_of_slot_ne_none hg hs)
  obtain ⟨hnone, -⟩ | ⟨-, hmid, -⟩ | ⟨-, -, x, hend⟩ := engineTick_slotEnd ht
  · exact absurd hnone hs
  · exact absurd he hmid
  · obtain ⟨⟨ebusy, -⟩, hnext, -⟩ | ⟨⟨hidle, -⟩, hrest, -⟩ := hend.goesOn_or_ended
    · exact .inl ⟨ebusy.trans hbusy, hnext⟩
    · exact .inr ⟨hidle, hrest⟩

theorem index_seqAdvance {g : Engine} (h : g.step ≠ .rsMsb) : (seqAdvance g).step.index = g.step.index + 1 := by
  unfold seqAdvance
  cases hstep : g.step with
  | rsMsb => exact absurd hstep h
  | reset1 | convSkip | convCmd | wait750ms | reset2 | rsSkip | rsCmd | rsLsb => rfl

/-- A slot's end inside READ_TEMP: the step stays, the next begins, or one of the two exits is taken. -/
theorem SlotEnd.seq_cases {g h : Engine} (hend : SlotEnd g h) (hop : g.op = .readt) :
    (h.op = .readt ∧ (h.step = g.step ∨ h.step.index = g.step.index + 1)) ∨
    (h.op = .none ∧ h.step = g.step ∧
      ((g.step = .reset1 ∧ h.result = .noPresence) ∨ (g.step = .rsMsb ∧ h.result = .ok))) := by
  cases hend with
  | nextWrite => exact .inl ⟨hop, .inl rfl⟩
  | nextRead => exact .inl ⟨hop, .inl rfl⟩
  | advance x n _ hstep =>
    obtain ⟨⟨-, eop, -⟩, -⟩ := seqAdvance_goesOn (g := { g with shreg := x, bitn := n }) hstep
    exact .inl ⟨eop.trans hop, .inr (index_seqAdvance (g := { g with shreg := x, bitn := n }) hstep)⟩
  | absent _ hstep => exact .inr ⟨rfl, rfl, .inl ⟨hstep, rfl⟩⟩
  | reading _ hstep =>
    rw [seqAdvance_of_rsMsb (g := shiftIn g) hstep]
    exact .inr ⟨rfl, rfl, .inr ⟨hstep, rfl⟩⟩
  | resetPresence h | writeBit h | readBit h | writeByte h | readByte h => rw [hop] at h; cases h

/-- Settles O26: inside a slot nothing moves, and at its end the sequence's cases apply. -/
theorem sequenceIsLinearWithOneExit : Obligations.SequenceIsLinearWithOneExit := by
  unfold Obligations.SequenceIsLinearWithOneExit
  intro b g h hg hop ht
  obtain ⟨-, rfl⟩ | ⟨-, -, x, rfl⟩ | ⟨-, -, x, hend⟩ := engineTick_slotEnd ht
  · exact .inl ⟨hop, .inl rfl⟩
  · exact .inl ⟨hop, .inl rfl⟩
  · exact hend.seq_cases hop

/-! ### When results are written (R26 to R28, R42, R131) -/

theorem presence_seqAdvance_of_ne {g : Engine} (h : g.step ≠ .reset1) : (seqAdvance g).presence = g.presence := by
  unfold seqAdvance
  cases hstep : g.step with
  | reset1 => exact absurd hstep h
  | convSkip | convCmd | wait750ms | reset2 | rsSkip | rsCmd | rsLsb | rsMsb => rfl

theorem presence2_seqAdvance_of_ne {g : Engine} (h : g.step ≠ .reset2) : (seqAdvance g).presence2 = g.presence2 := by
  unfold seqAdvance
  cases hstep : g.step with
  | reset2 => exact absurd hstep h
  | reset1 | convSkip | convCmd | wait750ms | rsSkip | rsCmd | rsLsb | rsMsb => rfl

/-- Where the command goes on, the presence flags change only at the ends of READ_TEMP's two reset slots. -/
theorem SlotEnd.presence_of_goesOn {g h : Engine} (hend : SlotEnd g h) (hbusy : h.busy = true) :
    (h.presence ≠ g.presence → g.op = .readt ∧ g.step = .reset1) ∧
    (h.presence2 ≠ g.presence2 → g.op = .readt ∧ g.step = .reset2) := by
  cases hend with
  | nextWrite => exact ⟨fun hne => absurd rfl hne, fun hne => absurd rfl hne⟩
  | nextRead => exact ⟨fun hne => absurd rfl hne, fun hne => absurd rfl hne⟩
  | advance x n hop =>
    refine ⟨fun hne => ⟨hop, ?_⟩, fun hne => ⟨hop, ?_⟩⟩ <;> by_contra hstep
    · exact hne (presence_seqAdvance_of_ne (g := { g with shreg := x, bitn := n }) hstep)
    · exact hne (presence2_seqAdvance_of_ne (g := { g with shreg := x, bitn := n }) hstep)
  | reading _ hstep =>
    rw [seqAdvance_of_rsMsb (g := shiftIn g) hstep] at hbusy
    cases hbusy
  | absent | resetPresence | writeBit | readBit | writeByte | readByte => cases hbusy

/-- Settles O29: a tick that goes on keeps the results but for READ_TEMP's presence flags; one that ends a command sets
DONE. -/
theorem resultsAppearAtCompletion : Obligations.ResultsAppearAtCompletion := by
  unfold Obligations.ResultsAppearAtCompletion
  intro b g h ht
  refine ⟨fun hbusy => ?running, fun hrun hidle => ?ending, fun hs => ?idle⟩
  case running =>
    obtain ⟨-, eresult, edone, erx, eraw, ef32⟩ | ⟨⟨hidle, -⟩, -⟩ := engineTick_keeps_or_ended ht
    · refine ⟨eresult, edone, erx, eraw, ef32, ?_⟩
      obtain ⟨-, rfl⟩ | ⟨-, -, x, rfl⟩ | ⟨-, he, x, hend⟩ := engineTick_slotEnd ht
      · exact ⟨fun hne => absurd rfl hne, fun hne => absurd rfl hne⟩
      · exact ⟨fun hne => absurd rfl hne, fun hne => absurd rfl hne⟩
      · obtain ⟨hp, hp2⟩ := hend.presence_of_goesOn hbusy
        exact ⟨fun hne => ⟨(hp hne).1, (hp hne).2, he⟩, fun hne => ⟨(hp2 hne).1, (hp2 hne).2, he⟩⟩
    · rw [hbusy] at hidle; cases hidle
  case ending =>
    obtain ⟨⟨ebusy, -⟩, -⟩ | ⟨⟨-, hop⟩, ⟨hs, -⟩, hdone, -⟩ := engineTick_keeps_or_ended ht
    · rw [ebusy, hrun] at hidle; cases hidle
    · exact ⟨hdone, hs, hop⟩
  case idle => exact Except.ok.inj (ht.symm.trans (engineTick_idle hs b))

/-- R26 to R28: each data register changes only where a command that writes it completes. -/
abbrev Engine.writtenByOwners (g h : Engine) : Prop :=
  (h.rxdata ≠ g.rxdata → (g.op = .rbit ∨ g.op = .rbyte) ∧ h.op = .none ∧ h.result = .ok) ∧
  (h.tempRaw ≠ g.tempRaw → g.op = .readt ∧ g.step = .rsMsb ∧ h.op = .none ∧ h.result = .ok) ∧
  (h.tempF32 ≠ g.tempF32 → g.op = .readt ∧ h.op = .none ∧
    ((h.result = .ok ∧ h.tempF32 = f32 h.tempRaw.toInt) ∨ (h.result = .noPresence ∧ h.tempF32 = 0xC47A0000#32)))

theorem writtenByOwners_of_eq {g h : Engine} (hrx : h.rxdata = g.rxdata) (hraw : h.tempRaw = g.tempRaw)
    (hf32 : h.tempF32 = g.tempF32) : g.writtenByOwners h :=
  ⟨fun hne => absurd hrx hne, fun hne => absurd hraw hne, fun hne => absurd hf32 hne⟩

theorem SlotEnd.writtenByOwners {g h : Engine} (hend : SlotEnd g h) : g.writtenByOwners h := by
  cases hend with
  | nextWrite | nextRead | resetPresence | writeBit | writeByte => exact writtenByOwners_of_eq rfl rfl rfl
  | advance x n _ hstep =>
    obtain ⟨-, -, -, -, erx, eraw, ef32⟩ := seqAdvance_goesOn (g := { g with shreg := x, bitn := n }) hstep
    exact writtenByOwners_of_eq erx eraw ef32
  | absent hop => exact ⟨fun hne => absurd rfl hne, fun hne => absurd rfl hne, fun _ => ⟨hop, rfl, .inr ⟨rfl, rfl⟩⟩⟩
  | reading hop hstep =>
    rw [seqAdvance_of_rsMsb (g := shiftIn g) hstep]
    exact ⟨fun hne => absurd rfl hne, fun _ => ⟨hop, hstep, rfl, rfl⟩,
      fun _ => ⟨hop, rfl, .inl ⟨rfl, tempF32_decodeTemperature _ _ (shiftIn g)⟩⟩⟩
  | readBit hop =>
    exact ⟨fun _ => ⟨.inl hop, rfl, rfl⟩, fun hne => absurd rfl hne, fun hne => absurd rfl hne⟩
  | readByte hop =>
    exact ⟨fun _ => ⟨.inr hop, rfl, rfl⟩, fun hne => absurd rfl hne, fun hne => absurd rfl hne⟩

theorem engineTick_writtenByOwners {b : Bool} {g h : Engine} (ht : engineTick b g = .ok h) : g.writtenByOwners h := by
  obtain ⟨-, rfl⟩ | ⟨-, -, x, rfl⟩ | ⟨-, -, x, hend⟩ := engineTick_slotEnd ht
  · exact writtenByOwners_of_eq rfl rfl rfl
  · exact writtenByOwners_of_eq rfl rfl rfl
  · exact hend.writtenByOwners

/-- No CMD write touches a data register. -/
theorem acceptEngine_writtenByOwners (v : Word) (l : Bool) (g : Engine) : g.writtenByOwners (acceptEngine v l g) := by
  obtain ⟨-, e⟩ | ⟨-, -, e⟩ | ⟨-, -, e⟩ | ⟨-, e⟩ | ⟨-, i, -, e⟩ := acceptEngine_cases v l g <;> rw [e]
  case inr.inr.inr.inr =>
    exact writtenByOwners_of_eq (started_rxdata i g) (started_tempRaw i g) (started_tempF32 i g)
  all_goals exact writtenByOwners_of_eq rfl rfl rfl

/-- Settles O30: of the ways a step changes the engine only a slot's end writes a data register. -/
theorem dataRegistersHaveTheirWriters : Obligations.DataRegistersHaveTheirWriters := by
  unfold Obligations.DataRegistersHaveTheirWriters
  intro s t _ h hrst
  obtain ⟨b, -, htick⟩ | ⟨v, -, e⟩ | ⟨v, -, e⟩ | ⟨hin, -⟩ | e := step_engine_cases h
  · exact engineTick_writtenByOwners htick
  · rw [e]; exact acceptEngine_writtenByOwners v s.lineReady s.engine
  · rw [e]; exact writtenByOwners_of_eq rfl rfl rfl
  · exact absurd hin hrst
  · rw [e]; exact writtenByOwners_of_eq rfl rfl rfl

/-! ### DONE and the interrupt (R117) -/

/-- A CMD write that sets DONE has ended its command at once; one that clears DONE has started a command. -/
theorem acceptEngine_done (v : Word) (l : Bool) (g : Engine) :
    (acceptEngine v l g).done = g.done ∨
    ((acceptEngine v l g).done = true ∧ (acceptEngine v l g).busy = false ∧ (acceptEngine v l g).result ≠ .none) ∨
    ((acceptEngine v l g).done = false ∧ (acceptEngine v l g).busy = true) := by
  obtain ⟨-, e⟩ | ⟨hidle, -, e⟩ | ⟨hidle, -, e⟩ | ⟨hidle, e⟩ | ⟨hready, i, hi, e⟩ := acceptEngine_cases v l g <;> rw [e]
  · exact .inl rfl
  · exact .inr (.inl ⟨rfl, hidle, by cases l <;> simp⟩)
  · exact .inr (.inl ⟨rfl, hidle, by simp⟩)
  · exact .inr (.inl ⟨rfl, hidle, by simp⟩)
  · rw [← execEngine_eq_started hi l hready]
    obtain ⟨hbusy, hdone, -⟩ := execEngine_of_ready hi l hready
    exact .inr (.inr ⟨hdone, hbusy⟩)

/-- A tick never clears DONE, and where it sets it a command has ended. -/
theorem engineTick_done {b : Bool} {g h : Engine} (ht : engineTick b g = .ok h) :
    h.done = g.done ∨ (h.done = true ∧ h.busy = false ∧ h.result ≠ .none) := by
  obtain ⟨-, -, edone, -⟩ | ⟨⟨hidle, -⟩, -, hdone, hcode⟩ := engineTick_keeps_or_ended ht
  · exact .inl edone
  · exact .inr ⟨hdone, hidle, by obtain e | e := hcode <;> simp [e]⟩

/-- Settles O38: of the ways a step changes the engine, which raise DONE and which lower it. -/
theorem doneIrqFollowsCompletion : Obligations.DoneIrqFollowsCompletion := by
  unfold Obligations.DoneIrqFollowsCompletion
  refine ⟨fun g => rfl, fun s t h =>
    ⟨fun (hlow : s.engine.done = false) (hhigh : t.engine.done = true) => ?rises,
      fun (hhigh : s.engine.done = true) (hlow : t.engine.done = false) => ?falls⟩⟩
  all_goals
    have hchanged : t.engine.done ≠ s.engine.done := by rw [hhigh, hlow]; decide
    obtain ⟨b, hin, htick⟩ | ⟨v, hin, e⟩ | ⟨v, hin, e⟩ | ⟨hin, e⟩ | e := step_engine_cases h
  case rises.inl =>
    obtain hsame | ⟨-, hidle, hcode⟩ := engineTick_done htick
    · exact absurd hsame hchanged
    · exact ⟨hidle, hcode, .inr (hin.imp_right fun hb => ⟨b, hb⟩)⟩
  case rises.inr.inl =>
    obtain hsame | ⟨-, hidle, hcode⟩ | ⟨hfalse, -⟩ := acceptEngine_done v s.lineReady s.engine
    · exact absurd (e ▸ hsame) hchanged
    · exact ⟨e ▸ hidle, e ▸ hcode, .inl ⟨v, hin⟩⟩
    · rw [← e, hhigh] at hfalse; cases hfalse
  case rises.inr.inr.inl => rw [e, writeStatus_done, hlow] at hhigh; cases hhigh
  case rises.inr.inr.inr.inl => rw [e] at hhigh; cases hhigh
  case falls.inl =>
    obtain hsame | ⟨htrue, -⟩ := engineTick_done htick
    · exact absurd hsame hchanged
    · rw [hlow] at htrue; cases htrue
  case falls.inr.inl =>
    obtain hsame | ⟨htrue, -⟩ | ⟨-, hbusy⟩ := acceptEngine_done v s.lineReady s.engine
    · exact absurd (e ▸ hsame) hchanged
    · rw [← e, hlow] at htrue; cases htrue
    · exact .inr (.inr ⟨v, hin, e ▸ hbusy⟩)
  case falls.inr.inr.inl =>
    rw [e, writeStatus_done, hhigh] at hlow
    exact .inr (.inl ⟨v, hin, by simpa using hlow⟩)
  case falls.inr.inr.inr.inl => exact .inl hin
  all_goals exact absurd (congrArg Engine.done e) hchanged

/-! ### INITIALIZED (R128) -/

theorem SlotEnd.initialized {g h : Engine} (hend : SlotEnd g h) : h.initialized = g.initialized := by
  cases hend with
  | advance x n _ hstep =>
    obtain ⟨⟨-, -, e⟩, -⟩ := seqAdvance_goesOn (g := { g with shreg := x, bitn := n }) hstep
    exact e
  | reading _ hstep => rw [seqAdvance_of_rsMsb (g := shiftIn g) hstep]; rfl
  | nextWrite | nextRead | absent | resetPresence | writeBit | readBit | writeByte | readByte => rfl

theorem engineTick_initialized {b : Bool} {g h : Engine} (ht : engineTick b g = .ok h) :
    h.initialized = g.initialized := by
  obtain ⟨-, rfl⟩ | ⟨-, -, x, rfl⟩ | ⟨-, -, x, hend⟩ := engineTick_slotEnd ht
  · rfl
  · rfl
  · exact hend.initialized

/-- A CMD write changes INITIALIZED only as INIT, while no command runs. -/
theorem acceptEngine_initialized (v : Word) (l : Bool) (g : Engine) :
    (acceptEngine v l g).initialized = g.initialized ∨
    (v = encode .init ∧ g.busy = false ∧ (acceptEngine v l g).initialized = l) := by
  obtain ⟨-, e⟩ | ⟨hidle, hv, e⟩ | ⟨-, -, e⟩ | ⟨-, e⟩ | ⟨-, i, -, e⟩ := acceptEngine_cases v l g <;> rw [e]
  · exact .inl rfl
  · exact .inr ⟨hv, hidle, rfl⟩
  · exact .inl rfl
  · exact .inl rfl
  · exact .inl (started_initialized i g)

/-- Settles O41: of the ways a step changes the engine, only `rst` and INIT touch INITIALIZED. -/
theorem onlyInitChangesInitialized : Obligations.OnlyInitChangesInitialized := by
  unfold Obligations.OnlyInitChangesInitialized
  intro s t h hchanged
  obtain ⟨b, -, htick⟩ | ⟨v, hin, e⟩ | ⟨v, -, e⟩ | ⟨hin, -⟩ | e := step_engine_cases h
  · exact absurd (engineTick_initialized htick) hchanged
  · rw [e] at hchanged ⊢
    obtain hsame | ⟨rfl, hidle, hready⟩ := acceptEngine_initialized v s.lineReady s.engine
    · exact absurd hsame hchanged
    · exact .inr ⟨hin, hidle, hready⟩
  · exact absurd (congrArg Engine.initialized e) hchanged
  · exact .inl hin
  · exact absurd (congrArg Engine.initialized e) hchanged

end Sys2Proof.Machine

namespace Sys2Proof.Machine

/-! ### What stops a step (R36, R110) -/

/-- A tick that does not go well is a fault of the engine's tick. -/
theorem tick_next_or_fault (b : Bool) (s : State) :
    (∃ t, tick b s = .next t) ∨ ∃ f, engineTick b s.engine = .error f ∧ tick b s = .fault f := by
  unfold tick
  cases engineTick b s.engine with
  | ok g => exact .inl ⟨_, rfl⟩
  | error f => exact .inr ⟨f, rfl, rfl⟩

/-- A write that reaches no register is refused, and every other is answered. -/
theorem hostWrite_next_or_refused (size : AccessSize) (off : Nat) (v : Word) (s : State) :
    (∃ t, hostWrite size off v s = .next t) ∨
      ∃ r, hostAccess size off = .error r ∧ hostWrite size off v s = .refused r := by
  cases ha : hostAccess size off with
  | ok r => exact .inl (hostWrite_of_access ha v s ▸ exists_writeReg_next r v s)
  | error r => exact .inr ⟨r, rfl, hostWrite_of_refusal ha v s⟩

/-- A read that reaches no register is refused, and every other is answered. -/
theorem hostRead_next_or_refused (size : AccessSize) (off : Nat) (s : State) :
    (∃ t, hostRead size off s = .next t) ∨
      ∃ r, hostAccess size off = .error r ∧ hostRead size off s = .refused r := by
  cases ha : hostAccess size off with
  | ok r => exact .inl ⟨_, hostRead_of_access ha s⟩
  | error r => exact .inr ⟨r, rfl, hostRead_of_refusal ha s⟩

/-- A step is answered, or it is a tick that faults, or a host access that is refused for the reason the access gives. -/
theorem step_outcome_cases (s : State) :
    (∃ t, step s = .next t) ∨
    (∃ b f, engineTick b s.engine = .error f ∧ step s = .fault f) ∨
    ∃ size off r, hostAccess size off = .error r ∧ step s = .refused r ∧
      (s.inputs.head? = some (.hostRead size off) ∨ ∃ v, s.inputs.head? = some (.hostWrite size off v)) := by
  unfold step
  cases s.inputs with
  | nil => exact (tick_next_or_fault _ s).imp_right fun h => .inl ⟨_, h⟩
  | cons i rest =>
    cases i with
    | tick b => exact (tick_next_or_fault b { s with inputs := rest }).imp_right fun h => .inl ⟨b, h⟩
    | hostWrite size off v =>
      exact (hostWrite_next_or_refused size off v { s with inputs := rest }).imp_right fun ⟨r, ha, h⟩ =>
        .inr ⟨size, off, r, ha, h, .inr ⟨v, rfl⟩⟩
    | hostRead size off =>
      exact (hostRead_next_or_refused size off { s with inputs := rest }).imp_right fun ⟨r, ha, h⟩ =>
        .inr ⟨size, off, r, ha, h, .inl rfl⟩
    | lineReady | rst => exact .inl ⟨_, rfl⟩

/-- An access that reaches no register fails a check of R36. -/
theorem not_admitted_of_hostAccess_error {size : AccessSize} {off : Nat} {r : Refusal}
    (h : hostAccess size off = .error r) : size ≠ .word ∨ hostReg? off = none ∨ off % 4 ≠ 0 := by
  by_contra hadmitted
  push Not at hadmitted
  obtain ⟨hword, hreg, halign⟩ := hadmitted
  obtain ⟨r', hr'⟩ := Option.ne_none_iff_exists'.mp hreg
  cases h.symm.trans (hostAccess_ok_iff.mpr ⟨hword, halign, hr'⟩)

/-- Settles O47: a fault needs a slot without a command, which the invariant excludes; a refusal is its access's. -/
theorem noStepFaults : Obligations.NoStepFaults := by
  unfold Obligations.NoStepFaults
  intro s hs
  obtain ⟨t, ht⟩ | ⟨b, f, htick, -⟩ | ⟨size, off, r, ha, hrefused, hin⟩ := step_outcome_cases s
  · simp [ht]
  · obtain ⟨hslot, hop⟩ := engineTick_error htick
    exact absurd (slot_eq_none_of_op_eq_none hs.1 hop) hslot
  · refine ⟨fun f h => (nomatch hrefused.symm.trans h), fun _ _ => ?_⟩
    exact ⟨size, off, not_admitted_of_hostAccess_error ha, hin⟩

/-! ### The host beside a running command (R115, R118, R119, R124) -/

/-- A run of ticks does not look at OVERRUN. -/
theorem tickRun_withOverrun (d : Nat → Bool) (x : Bool) (n : Nat) (g : Engine) :
    tickRun d n (withOverrun x g) = (tickRun d n g).map (withOverrun x) := by
  induction n with
  | zero => rfl
  | succ n ih =>
    rw [tickRun, tickRun, ih]
    cases tickRun d n g with
    | ok h => exact engineTick_withOverrun (d n) x h
    | error f => rfl

/-- A run of ticks from its first tick on. -/
theorem tickRun_cons {d : Nat → Bool} {g g' : Engine} (h : engineTick (d 0) g = .ok g') (n : Nat) :
    tickRun d (n + 1) g = tickRun (fun j => d (j + 1)) n g' := by
  rw [Nat.add_comm n 1, tickRun_then (m := 1) h]
  simp only [Nat.add_comm 1]

/-- The command is running before each of the ticks and after the last. -/
abbrev Engine.runsThrough (d : Nat → Bool) (n : Nat) (g : Engine) : Prop :=
  ∀ j ≤ n, ∃ h, tickRun d j g = .ok h ∧ h.busy = true

theorem runsThrough_withOverrun {d : Nat → Bool} {n : Nat} {g : Engine} (h : g.runsThrough d n) (x : Bool) :
    (withOverrun x g).runsThrough d n := fun j hj => by
  obtain ⟨k, hk, hbusy⟩ := h j hj
  exact ⟨withOverrun x k, by rw [tickRun_withOverrun, hk]; rfl, hbusy⟩

theorem runsThrough_tail {d : Nat → Bool} {n : Nat} {g g' : Engine} (h : g.runsThrough d (n + 1))
    (ht : engineTick (d 0) g = .ok g') : g'.runsThrough (fun j => d (j + 1)) n := fun j hj => by
  rw [← tickRun_cons ht]
  exact h (j + 1) (by omega)

/-- A write of STATUS while a command runs can change OVERRUN alone, since DONE is 0. -/
theorem writeStatus_of_busy {g : Engine} (hg : g.Inv) (hbusy : g.busy = true) (v : Word) :
    ∃ x, writeStatus v g = withOverrun x g := by
  obtain ⟨-, -, -, ⟨hrun, -⟩, -⟩ := hg
  obtain ⟨-, hdone, -⟩ := hrun hbusy
  exact ⟨g.overrun && !v.getLsbD 11, by simp [writeStatus, withOverrun, hdone]⟩

/-- An admitted write while a command runs changes OVERRUN alone (R115). -/
theorem writeReg_of_busy (r : HostReg) (v : Word) {s : State} (hs : s.Inv) (hbusy : s.engine.busy = true) :
    ∃ x, writeReg r v s = .next { s with engine := withOverrun x s.engine } := by
  cases r with
  | cmd => exact ⟨true, by rw [writeReg, acceptCommand_engine, acceptEngine_of_busy v _ hbusy]; rfl⟩
  | status =>
    obtain ⟨x, hx⟩ := writeStatus_of_busy hs hbusy v
    exact ⟨x, by rw [writeReg, hx]⟩
  | rxdata | tempRaw | tempF32 | reserved => exact ⟨s.engine.overrun, rfl⟩

/-- A quiet access of a whole word reaches a register. -/
theorem exists_hostAccess_ok {size : AccessSize} {off : Nat}
    (h : decide (size = .word ∧ (hostReg? off).isSome) = true) : ∃ r, hostAccess size off = .ok r := by
  obtain ⟨hword, hreg⟩ := of_decide_eq_true h
  obtain ⟨r, hr⟩ := Option.isSome_iff_exists.mp hreg
  have halign : off % 4 = 0 := by
    unfold hostReg? at hr
    split at hr <;> simp_all
  exact ⟨r, hostAccess_ok_iff.mpr ⟨hword, halign, hr⟩⟩

/-- While a command runs, a quiet input other than a tick takes no time and changes OVERRUN alone in the engine. -/
theorem step_quiet {s : State} {i : Input} {l : List Input} (hs : s.Inv) (hbusy : s.engine.busy = true)
    (hquiet : i.quiet = true) (hdraw : i.draw? = none) :
    ∃ (t : State) (x : Bool), step (s.withInputs (i :: l)) = .next (t.withInputs l) ∧ t.engine = withOverrun x s.engine ∧
      t.now = s.now := by
  cases i with
  | tick b => cases hdraw
  | hostWrite size off v =>
    obtain ⟨r, hr⟩ := exists_hostAccess_ok hquiet
    obtain ⟨x, hx⟩ := writeReg_of_busy r v (s := s.withInputs l) hs hbusy
    exact ⟨{ s with engine := withOverrun x s.engine }, x, (hostWrite_of_access hr v (s.withInputs l)).trans hx, rfl, rfl⟩
  | hostRead size off =>
    obtain ⟨r, hr⟩ := exists_hostAccess_ok hquiet
    exact ⟨{ s with hostRdata := readReg r (s.withInputs l) }, s.engine.overrun, hostRead_of_access hr (s.withInputs l),
      rfl, rfl⟩
  | lineReady level => exact ⟨{ s with lineReady := level }, s.engine.overrun, rfl, rfl, rfl⟩
  | rst => cases hquiet

theorem eq_tick_of_draw {i : Input} {b : Bool} (h : i.draw? = some b) : i = .tick b := by
  cases i with
  | tick b' => rw [Option.some.inj h]
  | hostWrite | hostRead | lineReady | rst => cases h

/-- The steps through quiet inputs give the engine of the ticks among them but for OVERRUN: by induction on the inputs. -/
theorem run_quiet (l : List Input) : ∀ (s : State) (d : Nat → Bool) (n : Nat), s.Inv → (∀ i ∈ l, i.quiet = true) →
    l.filterMap Input.draw? = (List.range n).map d → s.engine.runsThrough d n →
    ∃ t h x, run l.length (s.withInputs l) = .next t ∧ tickRun d n s.engine = .ok h ∧ t.engine = withOverrun x h ∧
      t.now = s.now + n := by
  induction l with
  | nil =>
    intro s d n _ _ hdraws _
    obtain rfl : n = 0 := by simpa using congrArg List.length hdraws.symm
    exact ⟨s.withInputs [], s.engine, s.engine.overrun, rfl, rfl, rfl, rfl⟩
  | cons i l ih =>
    intro s d n hs hquiet hdraws hrun
    obtain ⟨hi, hl⟩ := List.forall_mem_cons.mp hquiet
    rw [List.length_cons, run]
    cases hdraw : i.draw? with
    | none =>
      obtain ⟨_, h0, hbusy⟩ := hrun 0 (Nat.zero_le n)
      obtain rfl := Except.ok.inj h0
      obtain ⟨s', x, hstep, hengine, hnow⟩ := step_quiet (l := l) hs hbusy hi hdraw
      have hs' : s'.Inv := everyStepKeepsInv (s.withInputs (i :: l)) (s'.withInputs l) hs hstep
      rw [List.filterMap_cons_none hdraw] at hdraws
      obtain ⟨t, h, y, hruns, hticks, ht, htime⟩ := ih s' d n hs' hl hdraws (hengine ▸ runsThrough_withOverrun hrun x)
      rw [hengine, tickRun_withOverrun] at hticks
      cases hk : tickRun d n s.engine with
      | error f => rw [hk] at hticks; cases hticks
      | ok k =>
        rw [hk] at hticks
        obtain rfl := Except.ok.inj hticks
        exact ⟨t, k, y, by rw [hstep]; exact hruns, rfl, ht, htime.trans (by rw [hnow])⟩
    | some b =>
      obtain rfl := eq_tick_of_draw hdraw
      rw [List.filterMap_cons_some hdraw] at hdraws
      cases n with
      | zero => cases hdraws
      | succ n =>
        rw [List.range_succ_eq_map, List.map_cons, List.map_map, List.cons.injEq] at hdraws
        obtain ⟨rfl, hdraws⟩ := hdraws
        obtain ⟨g, hg, -⟩ := hrun 1 (by omega)
        have htick : engineTick (d 0) s.engine = .ok g := hg
        have hstep := step_tick (s := s.withInputs (.tick (d 0) :: l)) rfl htick
        obtain ⟨t, h, y, hruns, hticks, ht, htime⟩ := ih { s with engine := g, now := s.now + 1 } (fun j => d (j + 1)) n
          (engineTick_keeps_inv hs htick) hl hdraws (runsThrough_tail hrun htick)
        refine ⟨t, h, y, by rw [hstep]; exact hruns, (tickRun_cons htick n).trans hticks, ht, htime.trans ?_⟩
        change s.now + 1 + n = s.now + (n + 1)
        omega

/-- Settles O48: the quiet inputs give the engine of their ticks but for OVERRUN. -/
theorem hostCannotDisturbARunningCommand : Obligations.HostCannotDisturbARunningCommand := by
  unfold Obligations.HostCannotDisturbARunningCommand
  intro s l d n hs hquiet hdraws hrun
  obtain ⟨t, h, x, hruns, hticks, ht, htime⟩ := run_quiet l s d n hs hquiet hdraws hrun
  exact ⟨t, h, hruns, hticks, by rw [ht]; rfl, htime⟩

end Sys2Proof.Machine

namespace Sys2Proof.Machine

/-! ### The number in TEMP_F32 (R57, R104 to R106) -/

/-- A binary32 pattern from its three fields: sign, exponent and fraction (R57). -/
def binary32OfFields (s : Bool) (exp : BitVec 8) (frac : BitVec 23) : Word := BitVec.ofBool s ++ exp ++ frac

section
variable (s : Bool) (exp : BitVec 8) (frac : BitVec 23)

theorem getLsbD_binary32OfFields (i : Nat) :
    (binary32OfFields s exp frac).getLsbD i =
      if i < 23 then frac.getLsbD i
      else if i - 23 < 8 then exp.getLsbD (i - 23) else (BitVec.ofBool s).getLsbD (i - 31) := by
  rw [binary32OfFields, BitVec.getLsbD_append, BitVec.getLsbD_append, Nat.sub_sub]

theorem sign_binary32OfFields : (binary32OfFields s exp frac).getLsbD 31 = s := by
  rw [getLsbD_binary32OfFields]
  simp

theorem exp_binary32OfFields : (binary32OfFields s exp frac).extractLsb' 23 8 = exp := by
  refine BitVec.eq_of_getLsbD_eq fun i hi => ?_
  simp [getLsbD_binary32OfFields, hi]

theorem frac_binary32OfFields : (binary32OfFields s exp frac).extractLsb' 0 23 = frac := by
  refine BitVec.eq_of_getLsbD_eq fun i hi => ?_
  simp [getLsbD_binary32OfFields, hi]

end

/-- What a pattern with a non-zero exponent field stands for. -/
theorem binary32Value_ofFields (s : Bool) {exp frac : Nat} (hpos : 0 < exp) (hexp : exp < 256) (hfrac : frac < 2 ^ 23) :
    binary32Value (binary32OfFields s (BitVec.ofNat 8 exp) (BitVec.ofNat 23 frac)) =
      (if s then -1 else 1) * (1 + (frac : ℚ) / 2 ^ 23) * 2 ^ ((exp : Int) - 127) := by
  have hexp' : exp % 2 ^ 8 = exp := Nat.mod_eq_of_lt hexp
  have hfrac' : frac % 2 ^ 23 = frac := Nat.mod_eq_of_lt hfrac
  simp only [binary32Value, sign_binary32OfFields, exp_binary32OfFields, frac_binary32OfFields, BitVec.toNat_ofNat, hexp',
    hfrac', if_neg hpos.ne']

/-- R106's significand and exponent give a sixteenth of the magnitude `m`, whose top bit is bit `k`. -/
theorem significand_mul_exponent {m k : Nat} (hlow : 2 ^ k ≤ m) (hk : k ≤ 23) :
    (1 + (((m - 2 ^ k) <<< (23 - k) : Nat) : ℚ) / 2 ^ 23) * 2 ^ (((127 + k - 4 : Nat) : Int) - 127) = (m : ℚ) / 16 := by
  have hexp : ((127 + k - 4 : Nat) : Int) - 127 = (k : Int) - 4 := by omega
  have hsplit : (2 : ℚ) ^ 23 = 2 ^ k * 2 ^ (23 - k) := by rw [← pow_add]; congr 1; omega
  rw [hexp, hsplit, Nat.shiftLeft_eq, zpow_sub₀ (by norm_num), zpow_natCast]
  push_cast [Nat.cast_sub hlow]
  field_simp
  ring

/-- The encoding of a magnitude below 2^16 has its fields in range. -/
theorem f32_fields_in_range {m k : Nat} (hk : k ≤ 15) (hhigh : m < 2 ^ (k + 1)) :
    127 + k - 4 < 256 ∧ (m - 2 ^ k) <<< (23 - k) < 2 ^ 23 := by
  refine ⟨by omega, ?_⟩
  rw [Nat.shiftLeft_eq]
  calc (m - 2 ^ k) * 2 ^ (23 - k) < 2 ^ k * 2 ^ (23 - k) :=
        Nat.mul_lt_mul_of_pos_right (by rw [pow_succ] at hhigh; omega) (by positivity)
    _ = 2 ^ 23 := by rw [← pow_add]; congr 1; omega

/-- A number is its sign times its magnitude. -/
theorem sign_mul_natAbs (raw : Int) : (if decide (raw < 0) then (-1 : ℚ) else 1) * (raw.natAbs : ℚ) = raw := by
  rw [Nat.cast_natAbs]
  obtain hneg | hpos := lt_or_ge raw 0
  · simp [hneg, abs_of_neg hneg]
  · simp [hpos.not_gt, abs_of_nonneg hpos]

/-- The encoding is exact: a 16-bit reading's pattern stands for a sixteenth of it (R105). -/
theorem binary32Value_f32 {raw : Int} (h : raw.natAbs < 2 ^ 16) : binary32Value (f32 raw) = (raw : ℚ) / 16 := by
  by_cases hzero : raw = 0
  · subst hzero
    norm_num [f32, binary32Value]
  have hm : raw.natAbs ≠ 0 := Int.natAbs_ne_zero.mpr hzero
  have hlow : 2 ^ Nat.log2 raw.natAbs ≤ raw.natAbs := Nat.log2_self_le hm
  have hk : Nat.log2 raw.natAbs ≤ 15 := by
    have := (Nat.log2_lt hm).mpr h
    omega
  obtain ⟨hexp, hfrac⟩ := f32_fields_in_range hk Nat.lt_log2_self
  have hfields : f32 raw = binary32OfFields (decide (raw < 0)) (BitVec.ofNat 8 (127 + Nat.log2 raw.natAbs - 4))
      (BitVec.ofNat 23 ((raw.natAbs - 2 ^ Nat.log2 raw.natAbs) <<< (23 - Nat.log2 raw.natAbs))) := if_neg hzero
  rw [hfields, binary32Value_ofFields _ (by omega) hexp hfrac, mul_assoc, significand_mul_exponent hlow (by omega)]
  rw [← mul_div_assoc, sign_mul_natAbs]

theorem natAbs_toInt_lt (x : BitVec 16) : x.toInt.natAbs < 2 ^ 16 := by
  have := x.isLt
  rw [BitVec.toInt_eq_toNat_cond]
  split <;> omega

/-- `(MSB << 8) | LSB` as an unsigned number (R104). -/
theorem toNat_assembleRaw (l m : Byte) : (assembleRaw l m).toNat = 256 * m.toNat + l.toNat := by
  rw [assembleRaw, BitVec.toNat_append, Nat.shiftLeft_eq, Nat.mul_comm, ← Nat.two_pow_add_eq_or_of_lt l.isLt m.toNat]

/-- In two's complement the sign is bit 7 of the MSB (R104). -/
theorem toInt_assembleRaw (l m : Byte) :
    (assembleRaw l m).toInt =
      if m.getLsbD 7 then ((256 * m.toNat + l.toNat : Nat) : Int) - 65536 else (256 * m.toNat + l.toNat : Nat) := by
  have hmsb : (assembleRaw l m).msb = m.getLsbD 7 := by
    rw [assembleRaw, BitVec.msb_append]
    simp [BitVec.msb_eq_getLsbD_last]
  rw [BitVec.toInt_eq_msb_cond, hmsb, toNat_assembleRaw]
  rfl

/-- Settles O31: sign extension keeps the number, and the encoding of a 16-bit number is exact. -/
theorem temperatureIsRawOverSixteen : Obligations.TemperatureIsRawOverSixteen := by
  unfold Obligations.TemperatureIsRawOverSixteen
  intro l m g h raw16
  have hraw : h.tempRaw.toInt = (assembleRaw l m).toInt := BitVec.toInt_signExtend_of_le (by omega)
  refine ⟨rfl, hraw.trans (toInt_assembleRaw l m), ?_⟩
  rw [hraw]
  exact binary32Value_f32 (natAbs_toInt_lt _)

theorem binary32Value_sentinelF32 : binary32Value 0xC47A0000#32 = -1000 := by
  have hfields : 0xC47A0000#32 = binary32OfFields true (BitVec.ofNat 8 136) (BitVec.ofNat 23 7995392) := by decide
  rw [hfields, binary32Value_ofFields _ (by omega) (by omega) (by omega)]
  norm_num

/-- Settles O33: a pattern that stands for -1000 encodes -16000, since the encoding is exact; and that is 0xC180. -/
theorem sentinelIsAlsoADecode : Obligations.SentinelIsAlsoADecode := by
  unfold Obligations.SentinelIsAlsoADecode
  refine fun raw16 => ⟨fun h => ?_, fun h => by rw [h]; decide⟩
  have hvalue : (raw16.toInt : ℚ) / 16 = -1000 := by
    rw [← binary32Value_f32 (natAbs_toInt_lt raw16), h, binary32Value_sentinelF32]
  have hraw : raw16.toInt = -16000 := by
    have : (raw16.toInt : ℚ) = -16000 := by linarith
    exact_mod_cast this
  exact BitVec.eq_of_toInt_eq (hraw.trans (by decide))

/-- Settles O32: the worked values, computed. -/
theorem workedTemperatures : Obligations.WorkedTemperatures := by
  unfold Obligations.WorkedTemperatures
  decide

end Sys2Proof.Machine

namespace Sys2Proof.Machine

/-! ### The steps of READ_TEMP in time (R96) -/

/-- The step after each (R95); RS_MSB is the last. -/
def SeqStep.next : SeqStep → SeqStep
  | .reset1 => .convSkip
  | .convSkip => .convCmd
  | .convCmd => .wait750ms
  | .wait750ms => .reset2
  | .reset2 => .rsSkip
  | .rsSkip => .rsCmd
  | .rsCmd => .rsLsb
  | .rsLsb => .rsMsb
  | .rsMsb => .rsMsb

/-- The instant at which each step begins, counted from the acceptance (R96). -/
def SeqStep.startTick : SeqStep → Nat
  | .reset1 => 0
  | .convSkip => 960
  | .convCmd => 1520
  | .wait750ms => 2080
  | .reset2 => 752080
  | .rsSkip => 753040
  | .rsCmd => 753600
  | .rsLsb => 754160
  | .rsMsb => 754720

/-- The ticks each step takes: a reset slot, the conversion wait, or a byte (R96). -/
def SeqStep.ticks : SeqStep → Nat
  | .reset1 | .reset2 => 960
  | .wait750ms => 750000
  | .convSkip | .convCmd | .rsSkip | .rsCmd | .rsLsb | .rsMsb => 560

/-- READ_TEMP, past its first reset, in a step, with what the two resets have found so far. -/
def seqBase (step : SeqStep) (presence2 samp : Bool) (g : Engine) : Engine :=
  { g.running .readt .rst with step := step, presence := true, presence2 := presence2, samp := samp }

/-- The first byte of the scratchpad that READ_TEMP reads with these draws (R100). -/
def lsbRead (d : Nat → Bool) : Byte := sampledByte fun i => !d (754175 + 70 * i)

/-- READ_TEMP at the start of each step, if a device pulled low at tick 550. -/
def seqStart (d : Nat → Bool) (g : Engine) : SeqStep → Engine
  | .reset1 => started .readTemp g
  | .convSkip => startWriteByte cmdSkipRom (seqBase .convSkip false false g)
  | .convCmd => startWriteByte cmdConvertT (seqBase .convCmd false false g)
  | .wait750ms => startSlot .cwait { seqBase .wait750ms false false g with shreg := 0x00#8, bitn := 8 }
  | .reset2 => startSlot .rst { seqBase .reset2 false false g with shreg := 0x00#8, bitn := 8 }
  | .rsSkip => startWriteByte cmdSkipRom (seqBase .rsSkip (d 752630) (!d 752630) g)
  | .rsCmd => startWriteByte cmdReadScratchpad (seqBase .rsCmd (d 752630) (!d 752630) g)
  | .rsLsb => startReadByte (seqBase .rsLsb (d 752630) (!d 752630) g)
  | .rsMsb => startReadByte { seqBase .rsMsb (d 752630) (!d 754665) g with lsb := lsbRead d }

/-! ### One step of READ_TEMP run at once -/

theorem slotDone_of_byteSent {g : Engine} (hop : g.op = .readt) (h : g.step.byteSent.isSome) :
    slotDone g = .ok (afterWriteByte seqAdvance g) := by
  rw [slotDone_of_readt hop, seqSlotDone_of_byteSent h]

theorem slotDone_of_readsByte {g : Engine} (hop : g.op = .readt) (h : g.step.readsByte = true) :
    slotDone g = .ok (afterReadByte seqAdvance g) := by
  rw [slotDone_of_readt hop, seqSlotDone_of_readsByte h]

/-- A presence at RESET_1: the sequence goes on (R95). -/
theorem slotDone_of_reset1_present {g : Engine} (hop : g.op = .readt) (hstep : g.step = .reset1)
    (hpresent : g.samp = false) : slotDone g = .ok (seqAdvance g) := by
  rw [slotDone_of_readt hop, seqSlotDone_of_reset1 hstep, hpresent]
  rfl

/-- The one slot of the conversion wait and of the second reset is followed by the next step. -/
theorem slotDone_of_oneSlot {g : Engine} (hop : g.op = .readt) (hstep : g.step = .wait750ms ∨ g.step = .reset2) :
    slotDone g = .ok (seqAdvance g) := by
  rw [slotDone_of_readt hop, seqSlotDone_of_oneSlot hstep]

/-- A step that writes a byte takes 560 ticks. -/
theorem tickRun_byteSent (n : Byte) {g : Engine} (hop : g.op = .readt) (h : g.step.byteSent.isSome) (d : Nat → Bool) :
    tickRun d 560 (startWriteByte n g) =
      .ok (seqAdvance { g with shreg := 0x00#8, bitn := 8, slot := bitSlot (n.getLsbD 7), e := 70 }) :=
  tickRun_writeByte d fun _ eop estep => slotDone_of_byteSent (eop.trans hop) (estep ▸ h)

/-- A step that reads a byte takes 560 ticks. -/
theorem tickRun_readsByte {g : Engine} (hop : g.op = .readt) (h : g.step.readsByte = true) (d : Nat → Bool) :
    tickRun d 560 (startReadByte g) =
      .ok (seqAdvance { g with
        shreg := sampledByte (fun i => !d (70 * i + 15)), bitn := 8, slot := .rd, e := 70, samp := !d 505 }) :=
  tickRun_readByte d fun _ eop estep => slotDone_of_readsByte (eop.trans hop) (estep ▸ h)

/-- The conversion wait samples nothing: only the counter moves (R99). -/
theorem inSlot_cwait (d : Nat → Bool) (n : Nat) {g : Engine} (h : g.slot = .cwait) : inSlot d n g = { g with e := n } := by
  simp [inSlot, h]

/-- The conversion wait takes 750000 ticks. -/
theorem tickRun_cwait {g : Engine} (hop : g.op = .readt) (hstep : g.step = .wait750ms) (d : Nat → Bool) :
    tickRun d 750000 (startSlot .cwait g) = .ok (seqAdvance { g with slot := .cwait, e := 750000 }) := by
  have hslot := tickRun_slot (g := startSlot .cwait g) (by simp) rfl d
  rw [inSlot_cwait d _ rfl] at hslot
  exact hslot.trans (slotDone_of_oneSlot (g := { g with slot := .cwait, e := 750000 }) hop (.inl hstep))

/-- The draws of a run that begins at a tick. -/
def drawsFrom (n : Nat) (d : Nat → Bool) : Nat → Bool := fun j => d (n + j)

/-- Each step but the last ends at the start of the next. -/
theorem tickRun_seqStart_next {d : Nat → Bool} (hpresent : d 550 = true) (g : Engine) {st : SeqStep} (hst : st ≠ .rsMsb) :
    tickRun (drawsFrom st.startTick d) st.ticks (seqStart d g st) = .ok (seqStart d g st.next) := by
  cases st with
  | reset1 =>
    refine (tickRun_rst_end (g := started .readTemp g) rfl rfl _).trans ?_
    have hsamp : (!drawsFrom SeqStep.reset1.startTick d 550) = false := by simp [drawsFrom, SeqStep.startTick, hpresent]
    rw [hsamp]
    exact slotDone_of_reset1_present rfl rfl rfl
  | convSkip | convCmd | rsSkip | rsCmd => exact tickRun_byteSent _ (g := seqBase _ _ _ g) rfl rfl _
  | wait750ms => exact tickRun_cwait rfl rfl _
  | reset2 =>
    refine (tickRun_rst_end rfl rfl _).trans ((slotDone_of_oneSlot rfl (.inr rfl)).trans ?_)
    change Except.ok (startWriteByte cmdSkipRom (seqBase .rsSkip (!!d 752630) (!d 752630) g)) = _
    rw [Bool.not_not]
    rfl
  | rsLsb =>
    refine (tickRun_readsByte (g := seqBase .rsLsb _ _ g) rfl rfl _).trans ?_
    have hbyte : sampledByte (fun i => !drawsFrom SeqStep.rsLsb.startTick d (70 * i + 15)) = lsbRead d :=
      sampledByte_congr fun i _ => congrArg (fun t => !d t) (by simp only [SeqStep.startTick]; omega)
    rw [hbyte]
    rfl
  | rsMsb => exact absurd rfl hst

theorem startTick_next {st : SeqStep} (hst : st ≠ .rsMsb) : st.next.startTick = st.startTick + st.ticks := by
  cases st with
  | rsMsb => exact absurd rfl hst
  | reset1 | convSkip | convCmd | wait750ms | reset2 | rsSkip | rsCmd | rsLsb => rfl

/-- READ_TEMP with a presence at tick 550 is at the start of each step at the step's instant. -/
theorem tickRun_startTick {d : Nat → Bool} (hpresent : d 550 = true) (g : Engine) (st : SeqStep) :
    tickRun d st.startTick (started .readTemp g) = .ok (seqStart d g st) := by
  have hnext {st : SeqStep} (h : tickRun d st.startTick (started .readTemp g) = .ok (seqStart d g st))
      (hst : st ≠ .rsMsb) : tickRun d st.next.startTick (started .readTemp g) = .ok (seqStart d g st.next) := by
    rw [startTick_next hst, tickRun_then h]
    exact tickRun_seqStart_next hpresent g hst
  have h1 : tickRun d SeqStep.reset1.startTick (started .readTemp g) = .ok (seqStart d g .reset1) := rfl
  have h2 := hnext h1 nofun
  have h3 := hnext h2 nofun
  have h4 := hnext h3 nofun
  have h5 := hnext h4 nofun
  have h6 := hnext h5 nofun
  have h7 := hnext h6 nofun
  have h8 := hnext h7 nofun
  have h9 := hnext h8 nofun
  cases st with
  | reset1 => exact h1
  | convSkip => exact h2
  | convCmd => exact h3
  | wait750ms => exact h4
  | reset2 => exact h5
  | rsSkip => exact h6
  | rsCmd => exact h7
  | rsLsb => exact h8
  | rsMsb => exact h9

/-- Settles O24: READ_TEMP run step by step to the start of RS_MSB, and that byte to its end. -/
theorem readTempDeliversTheReading : Obligations.ReadTempDeliversTheReading := by
  unfold Obligations.ReadTempDeliversTheReading
  intro g d hpresent g0 l m raw16
  have hstart : tickRun d 754720 g0 = .ok (seqStart d g .rsMsb) := tickRun_startTick hpresent g .rsMsb
  rw [show 755280 = 754720 + 560 from rfl, tickRun_then hstart]
  refine (tickRun_readsByte (g := { seqBase .rsMsb (d 752630) (!d 754665) g with lsb := lsbRead d }) rfl rfl _).trans ?_
  have hbyte : sampledByte (fun i => !d (754720 + (70 * i + 15))) = m :=
    sampledByte_congr fun i _ => congrArg (fun t => !d t) (by omega)
  rw [hbyte]
  rfl

/-! ### READ_TEMP before each of its ticks (R96) -/

/-- The bit number and the elapsed ticks of the slot that a step is in after `k` of its ticks. -/
def SeqStep.place (st : SeqStep) (k : Nat) : Nat × Nat :=
  if st.byteSent.isSome || st.readsByte then (k / 70, k % 70) else (0, k)

/-- Inside a step that writes a byte, 70 ticks go to each bit. -/
theorem tickRun_byteSent_mid (n : Byte) {g : Engine} (hop : g.op = .readt) (h : g.step.byteSent.isSome)
    (d : Nat → Bool) {k : Nat} (hk : k < 560) :
    tickRun d k (startWriteByte n g) = .ok { writingBit n (k / 70) g with e := k % 70 } := by
  have hrun := tickRun_writeByte_mid (n := n) (g := g) (i := k / 70) (j := k % 70) d
    (fun _ eop estep => slotDone_of_byteSent (eop.trans hop) (estep ▸ h)) (by omega) (by omega)
  rwa [Nat.div_add_mod] at hrun

/-- Inside a step that reads a byte, 70 ticks go to each bit. -/
theorem tickRun_readsByte_mid {g : Engine} (hop : g.op = .readt) (h : g.step.readsByte = true) (d : Nat → Bool) {k : Nat}
    (hk : k < 560) :
    ∃ sh x, tickRun d k (startReadByte g) =
      .ok { g with shreg := sh, samp := x, bitn := k / 70, slot := .rd, e := k % 70 } := by
  have hrun := tickRun_readByte_mid (g := g) (i := k / 70) (j := k % 70) d
    (fun _ eop estep => slotDone_of_readsByte (eop.trans hop) (estep ▸ h)) (by omega) (by omega)
  rwa [Nat.div_add_mod] at hrun

/-- Inside a step the engine is at the step's place; what moves on is the slot and what it shifts and samples. -/
theorem tickRun_within_step (d d' : Nat → Bool) (g : Engine) {st : SeqStep} {k : Nat} (hk : k < st.ticks) :
    ∃ sh x b, tickRun d' k (seqStart d g st) = .ok { seqStart d g st with
      shreg := sh, samp := x, bitn := b, slot := readTempSlot st (st.place k).1, e := (st.place k).2 } := by
  cases st with
  | reset1 | reset2 => exact ⟨_, _, _, tickRun_rst rfl rfl d' hk⟩
  | wait750ms =>
    have hrun := tickRun_inSlot (g := seqStart d g .wait750ms) nofun rfl d' k hk
    rw [inSlot_cwait d' k rfl] at hrun
    exact ⟨_, _, _, hrun⟩
  | convSkip | convCmd | rsSkip | rsCmd =>
    exact ⟨_, _, _, tickRun_byteSent_mid _ (g := seqBase _ _ _ g) rfl rfl d' hk⟩
  | rsLsb =>
    obtain ⟨sh, x, hrun⟩ := tickRun_readsByte_mid (g := seqBase .rsLsb (d 752630) (!d 752630) g) rfl rfl d' hk
    exact ⟨sh, x, _, hrun⟩
  | rsMsb =>
    obtain ⟨sh, x, hrun⟩ := tickRun_readsByte_mid
      (g := { seqBase .rsMsb (d 752630) (!d 754665) g with lsb := lsbRead d }) rfl rfl d' hk
    exact ⟨sh, x, _, hrun⟩

end Sys2Proof.Machine

namespace Sys2Proof.Machine

/-! ### The timetable (R96) -/

/-- An instant between a step's start and its end is one of the step's ticks. -/
theorem exists_tick_of_step (st : SeqStep) {n : Nat} {p : SeqStep × Nat × Nat} (hstart : st.startTick ≤ n)
    (hend : n < st.startTick + st.ticks) (hplace : p = (st, st.place (n - st.startTick))) :
    ∃ st k, n = SeqStep.startTick st + k ∧ k < st.ticks ∧ p = (st, st.place k) :=
  ⟨st, n - st.startTick, by omega, by omega, hplace⟩

/-- Every instant of the success path lies in one step, at the timetable's place. -/
theorem exists_step_of_lt {n : Nat} (hn : n < 755280) :
    ∃ st k, n = SeqStep.startTick st + k ∧ k < st.ticks ∧ readTempPlace n = (st, st.place k) := by
  unfold readTempPlace
  split_ifs with h1 h2 h3 h4 h5 h6 h7 h8
  · exact exists_tick_of_step .reset1 (Nat.zero_le n) h1 rfl
  · exact exists_tick_of_step .convSkip (Nat.le_of_not_lt h1) h2 rfl
  · exact exists_tick_of_step .convCmd (Nat.le_of_not_lt h2) h3 rfl
  · exact exists_tick_of_step .wait750ms (Nat.le_of_not_lt h3) h4 rfl
  · exact exists_tick_of_step .reset2 (Nat.le_of_not_lt h4) h5 rfl
  · exact exists_tick_of_step .rsSkip (Nat.le_of_not_lt h5) h6 rfl
  · exact exists_tick_of_step .rsCmd (Nat.le_of_not_lt h6) h7 rfl
  · exact exists_tick_of_step .rsLsb (Nat.le_of_not_lt h7) h8 rfl
  · exact exists_tick_of_step .rsMsb (Nat.le_of_not_lt h8) hn rfl

/-- The instants of the success path at which READ_TEMP samples: twice a reset slot's, then those of the two bytes. -/
abbrev isSampleTick (n : Nat) : Prop :=
  n = 550 ∨ n = 752630 ∨ ∃ i < 8, n = 754175 + 70 * i ∨ n = 754735 + 70 * i

/-- A step samples at its place exactly at those instants. -/
theorem sampleAt_place_iff {st : SeqStep} {k : Nat} (hk : k < st.ticks) :
    sampleAt (readTempSlot st (st.place k).1) = some (st.place k).2 ↔ isSampleTick (st.startTick + k) := by
  cases st with
  | reset1 =>
    change some 550 = some k ↔ isSampleTick (0 + k)
    simp only [SeqStep.ticks] at hk
    rw [Option.some.injEq]
    refine ⟨fun h => .inl (by omega), ?_⟩
    rintro (h | h | ⟨i, hi, h | h⟩) <;> omega
  | reset2 =>
    change some 550 = some k ↔ isSampleTick (752080 + k)
    simp only [SeqStep.ticks] at hk
    rw [Option.some.injEq]
    refine ⟨fun h => .inr (.inl (by omega)), ?_⟩
    rintro (h | h | ⟨i, hi, h | h⟩) <;> omega
  | wait750ms | convSkip | convCmd | rsSkip | rsCmd =>
    simp only [SeqStep.ticks] at hk
    refine iff_of_false (by simp [readTempSlot]) ?_
    simp only [SeqStep.startTick]
    rintro (h | h | ⟨i, hi, h | h⟩) <;> omega
  | rsLsb =>
    change some 15 = some (k % 70) ↔ isSampleTick (754160 + k)
    simp only [SeqStep.ticks] at hk
    rw [Option.some.injEq]
    refine ⟨fun h => .inr (.inr ⟨k / 70, by omega, .inl (by omega)⟩), ?_⟩
    rintro (h | h | ⟨i, hi, h | h⟩) <;> omega
  | rsMsb =>
    change some 15 = some (k % 70) ↔ isSampleTick (754720 + k)
    simp only [SeqStep.ticks] at hk
    rw [Option.some.injEq]
    refine ⟨fun h => .inr (.inr ⟨k / 70, by omega, .inr (by omega)⟩), ?_⟩
    rintro (h | h | ⟨i, hi, h | h⟩) <;> omega

section
variable (d : Nat → Bool) (g : Engine)

/-- From its acceptance on READ_TEMP is running, with its result registers unwritten. -/
theorem seqStart_running (st : SeqStep) :
    (seqStart d g st).op = .readt ∧ (seqStart d g st).busy = true ∧ (seqStart d g st).done = false ∧
      (seqStart d g st).result = .none ∧ (seqStart d g st).step = st ∧ (seqStart d g st).rxdata = g.rxdata ∧
      (seqStart d g st).tempRaw = g.tempRaw ∧ (seqStart d g st).tempF32 = g.tempF32 := by
  cases st <;> exact ⟨rfl, rfl, rfl, rfl, rfl, rfl, rfl, rfl⟩

/-- PRESENCE is written at instant 960. -/
theorem seqStart_presence {st : SeqStep} {k : Nat} (hk : k < st.ticks) :
    (seqStart d g st).presence = if st.startTick + k < 960 then g.presence else true := by
  cases st with
  | reset1 => rw [if_pos (by simp only [SeqStep.startTick, SeqStep.ticks] at *; omega)]; rfl
  | convSkip | convCmd | wait750ms | reset2 | rsSkip | rsCmd | rsLsb | rsMsb =>
    rw [if_neg (by simp only [SeqStep.startTick]; omega)]; rfl

/-- PRESENCE2 is written at instant 753040. -/
theorem seqStart_presence2 {st : SeqStep} {k : Nat} (hk : k < st.ticks) :
    (seqStart d g st).presence2 = if st.startTick + k < 753040 then false else d 752630 := by
  cases st with
  | reset1 | convSkip | convCmd | wait750ms | reset2 =>
    rw [if_pos (by simp only [SeqStep.startTick, SeqStep.ticks] at *; omega)]; rfl
  | rsSkip | rsCmd | rsLsb | rsMsb => rw [if_neg (by simp only [SeqStep.startTick]; omega)]; rfl

end

/-- Settles O25: each instant lies in one step, and READ_TEMP run to the step's start and on from there is at its place. -/
theorem readTempFollowsTheTimeline : Obligations.ReadTempFollowsTheTimeline := by
  unfold Obligations.ReadTempFollowsTheTimeline
  intro g d hpresent g0 n hn
  obtain ⟨st, k, rfl, hk, hplace⟩ := exists_step_of_lt hn
  obtain ⟨sh, x, b, hrun⟩ := tickRun_within_step d (drawsFrom st.startTick d) g hk
  obtain ⟨hop, hbusy, hdone, hresult, hstep, hrx, hraw, hf32⟩ := seqStart_running d g st
  rw [hplace]
  exact ⟨_, (tickRun_then (tickRun_startTick hpresent g st) k).trans hrun, hop, hbusy, hdone, hresult, hstep,
    congrArg (readTempSlot · (st.place k).1) hstep.symm, rfl, sampleAt_place_iff hk, seqStart_presence d g hk,
    seqStart_presence2 d g hk, hrx, hraw, hf32⟩

end Sys2Proof.Machine

namespace Sys2Proof.Machine

/-! ### The ticks in which OWT itself pulls the line low (R62, R138) -/

/-- In how many of its ticks, its first ones, a slot is driven low (R62). -/
def lowLen : SlotKind → Nat
  | .rst => 480
  | .w1 | .rd => 6
  | .w0 => 60
  | .cwait | .none => 0

theorem drive_eq_decide (k : SlotKind) (e : Nat) : drive k e = decide (e < lowLen k) := by
  cases k with
  | cwait | none => exact (decide_eq_false (Nat.not_lt_zero e)).symm
  | rst | w0 | w1 | rd => rfl

theorem lowLen_le_len (k : SlotKind) : lowLen k ≤ len k := by
  cases k <;> decide

theorem lowAt_of_run {d : Nat → Bool} {g h : Engine} {j : Nat} (hrun : tickRun d j g = .ok h) :
    lowAt d g j = driveLow h := by
  rw [lowAt, hrun]

/-- The low ticks of a run in two parts. -/
theorem lowTicks_add {d : Nat → Bool} {m : Nat} {g h : Engine} (hm : tickRun d m g = .ok h) (n : Nat) :
    lowTicks d g (m + n) = lowTicks d g m + lowTicks (drawsFrom m d) h n := by
  have hlow : lowAt d g ∘ (m + ·) = lowAt (drawsFrom m d) h := by
    funext j
    rw [Function.comp_apply, lowAt, lowAt, tickRun_then hm]
    rfl
  rw [lowTicks, List.range_add, List.filter_append, List.length_append, List.filter_map, List.length_map, hlow]
  rfl

/-- In how many of the first `n` ticks the first `a` are. -/
theorem length_filter_lt_range (a n : Nat) : ((List.range n).filter fun j => decide (j < a)).length = min a n := by
  induction n with
  | zero => simp
  | succ n ih =>
    rw [List.range_succ, List.filter_append, List.length_append, ih]
    by_cases hn : n < a <;> simp [hn] <;> omega

/-- A slot run to its end has been low in its pattern's ticks. -/
theorem lowTicks_slot {g : Engine} (hs : g.slot ≠ .none) (he : g.e = 0) (d : Nat → Bool) :
    lowTicks d g (len g.slot) = lowLen g.slot := by
  have hlow : ∀ j ∈ List.range (len g.slot), lowAt d g j = decide (j < lowLen g.slot) := fun j hj => by
    rw [lowAt_of_run (tickRun_inSlot hs he d j (List.mem_range.mp hj)), driveLow_inSlot, drive_eq_decide]
  rw [lowTicks, List.filter_congr hlow, length_filter_lt_range, min_eq_left (lowLen_le_len _)]

/-- The low ticks of the first `i` bits of a byte that is being written. -/
theorem lowTicks_writeByte_bits {f : Engine → Engine} {n : Byte} {g : Engine} (d : Nat → Bool)
    (hd : ∀ x : Engine, x.op = g.op → x.step = g.step → slotDone x = .ok (afterWriteByte f x)) :
    ∀ i ≤ 8, lowTicks d (startWriteByte n g) (70 * i) =
      ((List.range i).map fun j => lowLen (bitSlot (n.getLsbD j))).sum
  | 0, _ => rfl
  | i + 1, hi => by
    have hslot := lowTicks_slot (g := writingBit n i g) (bitSlot_ne_none _) rfl (drawsFrom (70 * i) d)
    rw [Nat.mul_add, Nat.mul_one, lowTicks_add (tickRun_writeByte_bit d hd i hi),
      lowTicks_writeByte_bits d hd i (by omega), List.range_succ, List.map_append, List.sum_append, List.map_singleton,
      List.sum_singleton]
    simpa [writingBit] using hslot

/-- R138's count for a byte: 6 ticks for each 1, 60 for each 0. -/
def byteLowTicks (n : Byte) : Nat := 6 * popcount n + 60 * (8 - popcount n)

theorem sum_lowLen_bitSlot (n : Byte) :
    ((List.range 8).map fun j => lowLen (bitSlot (n.getLsbD j))).sum = byteLowTicks n := by
  revert n; decide

theorem lowTicks_writeByte {f : Engine → Engine} (n : Byte) {g : Engine} (d : Nat → Bool)
    (hd : ∀ x : Engine, x.op = g.op → x.step = g.step → slotDone x = .ok (afterWriteByte f x)) :
    lowTicks d (startWriteByte n g) 560 = byteLowTicks n :=
  (lowTicks_writeByte_bits d hd 8 le_rfl).trans (sum_lowLen_bitSlot n)

/-- The low ticks of the first `i` bits of a byte that is being read. -/
theorem lowTicks_readByte_bits {f : Engine → Engine} {g : Engine} (d : Nat → Bool)
    (hd : ∀ x : Engine, x.op = g.op → x.step = g.step → slotDone x = .ok (afterReadByte f x)) :
    ∀ i ≤ 8, lowTicks d (startReadByte g) (70 * i) = 6 * i
  | 0, _ => rfl
  | i + 1, hi => by
    rw [Nat.mul_add, Nat.mul_one, lowTicks_add (tickRun_readByte_bit d hd i hi),
      lowTicks_readByte_bits d hd i (by omega), Nat.mul_add]
    exact congrArg (6 * i + ·) (lowTicks_slot (g := readingBit _ _ i g) nofun rfl (drawsFrom (70 * i) d))

theorem lowTicks_readByte {f : Engine → Engine} {g : Engine} (d : Nat → Bool)
    (hd : ∀ x : Engine, x.op = g.op → x.step = g.step → slotDone x = .ok (afterReadByte f x)) :
    lowTicks d (startReadByte g) 560 = 48 :=
  lowTicks_readByte_bits d hd 8 le_rfl

/-! ### The low ticks of READ_TEMP -/

/-- The low ticks of each step. -/
def SeqStep.lowCount : SeqStep → Nat
  | .reset1 | .reset2 => 480
  | .wait750ms => 0
  | .convSkip | .rsSkip => byteLowTicks cmdSkipRom
  | .convCmd => byteLowTicks cmdConvertT
  | .rsCmd => byteLowTicks cmdReadScratchpad
  | .rsLsb | .rsMsb => 48

theorem lowTicks_seqStart (d d' : Nat → Bool) (g : Engine) (st : SeqStep) :
    lowTicks d' (seqStart d g st) st.ticks = st.lowCount := by
  cases st with
  | reset1 => exact lowTicks_slot (g := seqStart d g .reset1) nofun rfl d'
  | reset2 => exact lowTicks_slot (g := seqStart d g .reset2) nofun rfl d'
  | wait750ms => exact lowTicks_slot (g := seqStart d g .wait750ms) nofun rfl d'
  | convSkip | convCmd | rsSkip | rsCmd =>
    exact lowTicks_writeByte _ (g := seqBase _ _ _ g) d' fun _ hop hstep => slotDone_of_byteSent hop (hstep ▸ rfl)
  | rsLsb =>
    exact lowTicks_readByte (g := seqBase .rsLsb _ _ g) d' fun _ hop hstep => slotDone_of_readsByte hop (hstep ▸ rfl)
  | rsMsb =>
    exact lowTicks_readByte (g := { seqBase .rsMsb (d 752630) (!d 754665) g with lsb := lsbRead d }) d'
      fun _ hop hstep => slotDone_of_readsByte hop (hstep ▸ rfl)

/-- The low ticks of READ_TEMP up to the end of a step are the sum of the steps'. -/
theorem lowTicks_readTemp_add {d : Nat → Bool} (hpresent : d 550 = true) (g : Engine) (st : SeqStep) :
    lowTicks d (started .readTemp g) (st.startTick + st.ticks) =
      lowTicks d (started .readTemp g) st.startTick + st.lowCount := by
  rw [lowTicks_add (tickRun_startTick hpresent g st), lowTicks_seqStart]

/-- READ_TEMP with a presence is low in 2112 of its ticks. -/
theorem lowTicks_readTemp {d : Nat → Bool} (hpresent : d 550 = true) (g : Engine) :
    lowTicks d (started .readTemp g) 755280 = 2112 := by
  let low : Nat → Nat := lowTicks d (started .readTemp g)
  have hadd (st : SeqStep) : low (st.startTick + st.ticks) = low st.startTick + st.lowCount :=
    lowTicks_readTemp_add hpresent g st
  have h0 : low 0 = 0 := rfl
  have h1 : low 960 = low 0 + 480 := hadd .reset1
  have h2 : low 1520 = low 960 + 264 := hadd .convSkip
  have h3 : low 2080 = low 1520 + 372 := hadd .convCmd
  have h4 : low 752080 = low 2080 + 0 := hadd .wait750ms
  have h5 : low 753040 = low 752080 + 480 := hadd .reset2
  have h6 : low 753600 = low 753040 + 264 := hadd .rsSkip
  have h7 : low 754160 = low 753600 + 156 := hadd .rsCmd
  have h8 : low 754720 = low 754160 + 48 := hadd .rsLsb
  have h9 : low 755280 = low 754720 + 48 := hadd .rsMsb
  change low 755280 = 2112
  omega

/-! ### Each command's duration (R138) -/

/-- READ_TEMP completes where its first reset's draw says. -/
theorem completesAfter_readTemp (d : Nat → Bool) (g : Engine) :
    completesAfter d (started .readTemp g) (duration (d 550) .readTemp) := by
  cases hpresent : d 550 with
  | true =>
    refine ⟨fun j hj => ?_, _, readTempDeliversTheReading g d hpresent, rfl, rfl⟩
    obtain ⟨h, hrun, -, hbusy, -⟩ := readTempFollowsTheTimeline g d hpresent j hj
    exact ⟨h, hrun, hbusy⟩
  | false =>
    obtain ⟨-, hend⟩ := readTempWithoutPresenceStopsAtOnce g d hpresent
    exact ⟨fun j hj => ⟨_, tickRun_rst (g := started .readTemp g) rfl rfl d hj, rfl⟩, _, hend, rfl, rfl⟩

/-- A command that has started completes after its duration: each command's own statement says so. -/
theorem completesAfter_started {i : Instr} (hi : i ≠ .init) {s : State} (hready : s.engine.ready) (d : Nat → Bool) :
    completesAfter d (started i s.engine) (duration (d 550) i) := by
  cases i with
  | init => exact absurd rfl hi
  | readTemp => exact completesAfter_readTemp d s.engine
  | resetPresence =>
    obtain ⟨-, hcmd⟩ := resetPresenceRunsOneResetSlot
    obtain ⟨-, hmid, hend⟩ := hcmd s d hready
    refine ⟨fun j hj => ?_, _, hend, rfl, rfl⟩
    obtain ⟨h, hrun, rfl, -⟩ := hmid j hj
    exact ⟨_, hrun, rfl⟩
  | writeBit b =>
    obtain ⟨-, hcmd⟩ := writeBitRunsOneWriteSlot
    obtain ⟨-, hmid, hend⟩ := hcmd s b d hready
    refine ⟨fun j hj => ?_, _, hend, rfl, rfl⟩
    obtain ⟨h, hrun, rfl, -⟩ := hmid j hj
    exact ⟨_, hrun, rfl⟩
  | readBit =>
    obtain ⟨-, hcmd⟩ := readBitReturnsTheLineAtFifteen
    obtain ⟨-, hmid, hend⟩ := hcmd s d hready
    refine ⟨fun j hj => ?_, _, hend, rfl, rfl⟩
    obtain ⟨h, hrun, rfl, -⟩ := hmid j hj
    exact ⟨_, hrun, rfl⟩
  | writeByte n =>
    obtain ⟨-, hcmd⟩ := writeByteSendsBitsInOrder
    obtain ⟨-, hmid, hend⟩ := hcmd s n d hready
    refine ⟨fun j hj => ?_, _, hend, rfl, rfl⟩
    have hbit : j / 70 < 8 := by simp only [duration] at hj; omega
    obtain ⟨h, hrun, hh, -⟩ := hmid (j / 70) hbit (j % 70) (Nat.mod_lt j (by omega))
    rw [Nat.div_add_mod] at hrun
    exact ⟨h, hrun, congrArg Engine.busy hh⟩
  | readByte =>
    obtain ⟨-, hcmd⟩ := readByteReturnsSampledBits
    obtain ⟨-, hmid, hend⟩ := hcmd s d hready
    refine ⟨fun j hj => ?_, _, hend, rfl, rfl⟩
    have hbit : j / 70 < 8 := by simp only [duration] at hj; omega
    obtain ⟨h, hrun, hh⟩ := hmid (j / 70) hbit (j % 70) (Nat.mod_lt j (by omega))
    rw [Nat.div_add_mod] at hrun
    exact ⟨h, hrun, congrArg Engine.busy hh⟩

/-- OWT's own low ticks in a command that has started are the table's. -/
theorem lowTicks_started {i : Instr} (hi : i ≠ .init) (g : Engine) (d : Nat → Bool) :
    lowTicks d (started i g) (duration (d 550) i) = ownLowTicks (d 550) i := by
  cases i with
  | init => exact absurd rfl hi
  | readTemp =>
    cases hpresent : d 550 with
    | true => exact lowTicks_readTemp hpresent g
    | false => exact lowTicks_slot (g := started .readTemp g) nofun rfl d
  | resetPresence => exact lowTicks_slot (g := started .resetPresence g) nofun rfl d
  | writeBit b =>
    have hlow := lowTicks_slot (g := started (.writeBit b) g) (bitSlot_ne_none b) rfl d
    cases b <;> exact hlow
  | readBit => exact lowTicks_slot (g := started .readBit g) nofun rfl d
  | writeByte n =>
    exact lowTicks_writeByte n (g := g.running .wbyte (bitSlot (n.getLsbD 0))) d fun _ hop _ => slotDone_of_wbyte hop
  | readByte => exact lowTicks_readByte (g := g.running .rbyte .rd) d fun _ hop _ => slotDone_of_rbyte hop

/-- Settles O27: INIT ends at its CMD write; every other command has started, and its run is known. -/
theorem commandsTakeTheirTicks : Obligations.CommandsTakeTheirTicks := by
  unfold Obligations.CommandsTakeTheirTicks
  intro i s t d hs hready h
  rw [exec_engine] at h
  obtain rfl := Host.Outcome.next.inj h
  by_cases hi : i = .init
  · subst hi
    obtain ⟨hidle, -⟩ := id hready
    obtain ⟨hslot, hbusy, -⟩ := hs
    refine ⟨fun _ => ?_, fun hne => absurd rfl hne, rfl⟩
    rw [execEngine_init_of_idle _ hidle]
    exact ⟨hidle, rfl, slot_eq_none_of_op_eq_none hslot (hbusy.mpr hidle)⟩
  · rw [execEngine_eq_started hi _ hready]
    exact ⟨fun he => absurd he hi, fun _ => completesAfter_started hi hready d, lowTicks_started hi s.engine d⟩

/-! ### How many ticks a running command has left at most (R103, R109) -/

/-- The instant at which a step ends, on the success path. -/
def SeqStep.endTick (st : SeqStep) : Nat := st.startTick + st.ticks

/-- The ticks of the bits that follow the slot in progress, in a byte. -/
def Engine.bitTicksLeft (g : Engine) : Nat := if g.sends ∨ g.receives then 70 * (7 - g.bitn) else 0

/-- The ticks of the steps that follow the one in progress, in a READ_TEMP that takes no early exit. -/
def Engine.stepTicksLeft (g : Engine) : Nat := if g.op = .readt then 755280 - g.step.endTick else 0

/-- The ticks that a running command has left, if it takes no early exit: those of the slot, the byte and the sequence. -/
def Engine.ticksLeft (g : Engine) : Nat := len g.slot - g.e + (g.bitTicksLeft + g.stepTicksLeft)

/-- The next step of READ_TEMP and those after it take what is left after the one before. -/
theorem ticksLeft_seqAdvance {g : Engine} (hop : g.op = .readt) (hstep : g.step ≠ .rsMsb) :
    (seqAdvance g).ticksLeft = g.stepTicksLeft := by
  rw [Engine.stepTicksLeft, if_pos hop]
  unfold seqAdvance
  cases hst : g.step with
  | rsMsb => exact absurd hst hstep
  | reset1 | convSkip | convCmd | wait750ms | reset2 | rsSkip | rsCmd | rsLsb =>
    simp [Engine.ticksLeft, Engine.bitTicksLeft, Engine.stepTicksLeft, Engine.sends, Engine.receives, SeqStep.byteSent,
      SeqStep.readsByte, SeqStep.endTick, SeqStep.startTick, SeqStep.ticks, hop]

/-- The next bit of a byte that is written and the bits after it take what is left after the one before. -/
theorem ticksLeft_nextWriteSlot {g : Engine} (hs : g.sends) (hlt : g.bitn < 8) (hmore : g.bitn ≠ 7) :
    (nextWriteSlot g).ticksLeft = g.bitTicksLeft + g.stepTicksLeft := by
  have hlen : len (nextWriteSlot g).slot - (nextWriteSlot g).e = 70 := len_bitSlot _
  have hbits : g.bitTicksLeft = 70 * (7 - g.bitn) := if_pos (.inl hs)
  have hnext : (nextWriteSlot g).bitTicksLeft = 70 * (7 - (g.bitn + 1)) := if_pos (.inl hs)
  have hsteps : (nextWriteSlot g).stepTicksLeft = g.stepTicksLeft := rfl
  rw [Engine.ticksLeft, hlen, hbits, hnext, hsteps]
  omega

/-- The next bit of a byte that is read and the bits after it take what is left after the one before. -/
theorem ticksLeft_nextReadSlot {g : Engine} (hr : g.receives) (hlt : g.bitn < 8) (hmore : g.bitn ≠ 7) :
    (nextReadSlot g).ticksLeft = g.bitTicksLeft + g.stepTicksLeft := by
  have hlen : len (nextReadSlot g).slot - (nextReadSlot g).e = 70 := rfl
  have hbits : g.bitTicksLeft = 70 * (7 - g.bitn) := if_pos (.inr hr)
  have hnext : (nextReadSlot g).bitTicksLeft = 70 * (7 - (g.bitn + 1)) := if_pos (.inr hr)
  have hsteps : (nextReadSlot g).stepTicksLeft = g.stepTicksLeft := rfl
  rw [Engine.ticksLeft, hlen, hbits, hnext, hsteps]
  omega

/-- A slot's end leaves a command that goes on the ticks of the slots that followed, or ends it. -/
theorem SlotEnd.ticksLeft_or_ended {g h : Engine} (hend : SlotEnd g h) (hslot : g.slotFits = true) :
    (h.op = g.op ∧ h.ticksLeft = g.bitTicksLeft + g.stepTicksLeft) ∨ h.ended := by
  refine hend.goesOn_or_ended.imp_left fun ⟨⟨_, eop, _⟩, ⟨hs, _⟩, _⟩ => ⟨eop, ?_⟩
  cases hend with
  | nextWrite h hmore => exact ticksLeft_nextWriteSlot h ((slotFits_of_sends h).mp hslot).2 hmore
  | nextRead h hmore => exact ticksLeft_nextReadSlot h ((slotFits_of_receives h).mp hslot).2 hmore
  | advance x n hop hstep _ hlast =>
    have hbits : g.bitTicksLeft = 0 := by
      unfold Engine.bitTicksLeft
      obtain hone | hlast := hlast
      · rw [if_neg hone]
      · simp [hlast]
    rw [ticksLeft_seqAdvance (g := { g with shreg := x, bitn := n }) hop hstep, hbits, Nat.zero_add]
    rfl
  | reading _ hstep =>
    rw [seqAdvance_of_rsMsb (g := shiftIn g) hstep] at hs
    exact absurd rfl hs
  | absent | resetPresence | writeBit | readBit | writeByte | readByte => exact absurd rfl hs

/-- A running command has a tick left in its slot. -/
theorem e_lt_len_of_inv {g : Engine} (hg : g.Inv) (hop : g.op ≠ .none) : g.slot ≠ .none ∧ g.e < len g.slot := by
  obtain ⟨hslot, -, ⟨hcount, -⟩, -⟩ := hg
  have hs := slot_ne_none_of_op_ne_none hslot hop
  exact ⟨hs, hcount hs⟩

/-- A tick of a running command leaves it one tick less, or ends it. -/
theorem engineTick_ticksLeft {b : Bool} {g h : Engine} (hg : g.Inv) (hop : g.op ≠ .none) (ht : engineTick b g = .ok h) :
    (h.op = g.op ∧ h.ticksLeft + 1 = g.ticksLeft) ∨ h.ended := by
  obtain ⟨hs, hlt⟩ := e_lt_len_of_inv hg hop
  obtain ⟨hnone, -⟩ | ⟨-, -, x, rfl⟩ | ⟨-, he, x, hend⟩ := engineTick_slotEnd ht
  · exact absurd hnone hs
  · refine .inl ⟨rfl, ?_⟩
    change len g.slot - (g.e + 1) + (g.bitTicksLeft + g.stepTicksLeft) + 1 = g.ticksLeft
    rw [Engine.ticksLeft]
    omega
  · refine (hend.ticksLeft_or_ended hg.1).imp_left fun ⟨eop, hleft⟩ => ⟨eop, ?_⟩
    have hafter : h.ticksLeft = g.bitTicksLeft + g.stepTicksLeft := hleft
    rw [hafter, Engine.ticksLeft]
    omega

/-- A slot of READ_TEMP and the bits that follow it fit into its step. -/
theorem slot_add_bitTicksLeft_le {g : Engine} (hslot : g.slotFits = true) (hop : g.op = .readt) :
    len g.slot + g.bitTicksLeft ≤ g.step.ticks := by
  cases hstep : g.step with
  | convSkip | convCmd | rsSkip | rsCmd =>
    have hs : g.sends := .inr ⟨hop, by rw [hstep]; rfl⟩
    rw [((slotFits_of_sends hs).mp hslot).1, len_bitSlot, Engine.bitTicksLeft, if_pos (.inl hs), SeqStep.ticks]
    omega
  | rsLsb | rsMsb =>
    have hr : g.receives := .inr ⟨hop, by rw [hstep]; rfl⟩
    rw [((slotFits_of_receives hr).mp hslot).1, len_rd, Engine.bitTicksLeft, if_pos (.inr hr), SeqStep.ticks]
    omega
  | reset1 | wait750ms | reset2 =>
    have hs : g.slot = readTempSlot g.step 0 := by simpa [Engine.slotFits, hop, hstep, readTempSlot] using hslot
    simp [Engine.bitTicksLeft, hs, hstep, readTempSlot, hop, SeqStep.byteSent, SeqStep.readsByte, SeqStep.ticks]

/-- No command has more ticks left than the whole of READ_TEMP takes. -/
theorem ticksLeft_le {g : Engine} (hslot : g.slotFits = true) : g.ticksLeft ≤ 755280 := by
  unfold Engine.ticksLeft Engine.stepTicksLeft
  by_cases hop : g.op = .readt
  · have hstep := slot_add_bitTicksLeft_le hslot hop
    have htable : g.step.ticks + (755280 - g.step.endTick) ≤ 755280 := by cases g.step <;> decide
    rw [if_pos hop]
    omega
  · have hlen : len g.slot ≤ 750000 := by cases g.slot <;> decide
    have hbits : g.bitTicksLeft ≤ 490 := by unfold Engine.bitTicksLeft; split <;> omega
    rw [if_neg hop]
    omega

/-- A running command ends within the ticks it has left: by induction on them. -/
theorem exists_ended {n : Nat} : ∀ {d : Nat → Bool} {g : Engine}, g.Inv → g.op ≠ .none → g.ticksLeft ≤ n →
    ∃ m ≤ n, ∃ h, tickRun d m g = .ok h ∧ h.ended := by
  induction n with
  | zero =>
    intro d g hg hop hleft
    have hlt := (e_lt_len_of_inv hg hop).2
    rw [Engine.ticksLeft] at hleft
    omega
  | succ n ih =>
    intro d g hg hop hleft
    cases ht : engineTick (d 0) g with
    | error f => exact absurd (engineTick_error ht).2 hop
    | ok h =>
      obtain ⟨eop, hless⟩ | hended := engineTick_ticksLeft hg hop ht
      · obtain ⟨m, hm, k, hrun, hended⟩ :=
          ih (d := fun j => d (j + 1)) (engineTick_keeps_inv hg ht) (eop ▸ hop) (by omega)
        exact ⟨m + 1, by omega, k, (tickRun_cons ht m).trans hrun, hended⟩
      · exact ⟨1, by omega, h, ht, hended⟩

/-- Settles O28: a running command ends within the ticks it has left, which are at most a whole READ_TEMP's. -/
theorem startedCommandAlwaysCompletes : Obligations.StartedCommandAlwaysCompletes := by
  unfold Obligations.StartedCommandAlwaysCompletes
  intro d g hg hbusy
  obtain ⟨hslot, hfits, -⟩ := id hg
  have hop : g.op ≠ .none := fun h => by rw [hfits.mp h] at hbusy; cases hbusy
  obtain ⟨n, hn, h, hrun, ⟨hidle, -⟩, -, hdone, hcode⟩ := exists_ended hg hop (ticksLeft_le hslot)
  exact ⟨n, hn, h, hrun, hidle, hdone, hcode⟩

end Sys2Proof.Machine
